-- ==== Sys2Proof/Word.lean ====
section
/-! DEFINITION. The widths of the machine: an 8-bit cell and a register number. -/

namespace Sys2Proof

/-- One cell of memory, one register, one operand byte, one address: an unsigned 8-bit value
(R10, R21, R40). -/
abbrev Byte := BitVec 8

/-- A register number, 0 to 7 (R21: "index in [0,7]"). -/
abbrev RegIdx := Fin 8

end Sys2Proof
end

