-- ==== Sys2Proof/Config.lean ====
section
/-! DEFINITION. The constants the source fixes (R7). No free value: the spec draws none (R85). -/

namespace Sys2Proof.Config

/-- `NREG`: number of registers (R7). -/
def nReg : Nat := 8

/-- `SP_INDEX`: the register that is the stack pointer (R7, R22). -/
def spIndex : RegIdx := 7

/-- `MEM_SIZE`: number of memory cells, addresses 0 to 255 (R7, R40). -/
def memSize : Nat := 256

/-- `SP_RESET`: value of register 7 at reset (R7, R33). -/
def spReset : Byte := 0xF4

/-- `PC_RESET`: value of the pc when the first step is taken (R7, R33, R151). -/
def pcReset : Byte := 0x00

/-- `LOAD_BASE`: address of the first loaded program byte (R7, R171). -/
def loadBase : Nat := 0

/-- `MAX_ILEN`: longest instruction in bytes (R7, R60). -/
def maxILen : Nat := 3

/-- `N_OPCODES`: number of defined opcodes (R7, R64). -/
def nOpcodes : Nat := 13

end Sys2Proof.Config
end

