-- ==== Sys2Proof/Syntax.lean ====
section
/-! DEFINITION. The 13 instructions, one constructor per row of the opcode table (R64), and the names
of the rows and formats. -/

namespace Sys2Proof

/-- The instruction set, in the order of the table of R64. A register operand is the register it
selects, already reduced to 0 to 7 by the decoder (R24, R70); `value` is LDI's whole operand
byte (R63). -/
inductive Instr where
  /-- LDI regA, value (R90). -/
  | ldi (regA : RegIdx) (value : Byte)
  /-- PRN regA (R91). -/
  | prn (regA : RegIdx)
  /-- ADD regA, regB (R96). -/
  | add (regA regB : RegIdx)
  /-- MUL regA, regB (R97). -/
  | mul (regA regB : RegIdx)
  /-- CMP regA, regB (R98). -/
  | cmp (regA regB : RegIdx)
  /-- JMP regA (R105). -/
  | jmp (regA : RegIdx)
  /-- JEQ regA (R106). -/
  | jeq (regA : RegIdx)
  /-- JNE regA (R107). -/
  | jne (regA : RegIdx)
  /-- PUSH regA (R113). -/
  | push (regA : RegIdx)
  /-- POP regA (R114). -/
  | pop (regA : RegIdx)
  /-- CALL regA (R120). -/
  | call (regA : RegIdx)
  /-- RET (R121). -/
  | ret
  /-- HLT (R128). -/
  | hlt
  deriving DecidableEq, Repr

/-- The 13 rows of the opcode table by name (R64). -/
inductive Opcode where
  | ldi | prn | add | mul | cmp | jmp | jeq | jne | push | pop | call | ret | hlt
  deriving DecidableEq, Repr

/-- The four formats of R61. -/
inductive Format where
  /-- `OP`: the opcode byte alone. -/
  | op
  /-- `OP_R`: opcode, register operand. -/
  | opR
  /-- `OP_R_R`: opcode, two register operands. -/
  | opRR
  /-- `OP_R_I`: opcode, register operand, immediate. -/
  | opRI
  deriving DecidableEq, Repr

/-- The row of the table an instruction belongs to. -/
def Instr.opcode : Instr → Opcode
  | .ldi _ _ => .ldi
  | .prn _   => .prn
  | .add _ _ => .add
  | .mul _ _ => .mul
  | .cmp _ _ => .cmp
  | .jmp _   => .jmp
  | .jeq _   => .jeq
  | .jne _   => .jne
  | .push _  => .push
  | .pop _   => .pop
  | .call _  => .call
  | .ret     => .ret
  | .hlt     => .hlt

end Sys2Proof
end

