-- ==== Sys2Proof/WellFormed.lean ====
section
/-! DEFINITION. The checks on what enters the machine.

An instruction needs no check of its own: a register operand is one of the eight registers and an
immediate is one byte BY THEIR TYPES (`RegIdx`, `Byte`), so every term of `Instr` is well formed.
The checks that remain are on bytes: whether an image fits the load port (R171), and whether an
operand byte that names a register is written in its canonical form (R70). -/

namespace Sys2Proof

/-- The load port takes at most 256 bytes (R171; the spec's decision D16). -/
def imageFits (img : List Byte) : Bool := decide (img.length ≤ Config.memSize)

/-- A register operand byte in canonical form, `0000 0aaa` (R70). A byte that is not canonical still
selects a register (R66); only the encoder never writes it. -/
def regByteCanonical (b : Byte) : Bool := decide (b.toNat < Config.nReg)

end Sys2Proof
end

