-- ==== Sys2Proof/Decode.lean ====
section
/-! DEFINITION. The opcode table, the decoder, and after it the encoder (R60 to R70). The decoder
looks a byte up in the table; the encoder writes its bytes out a second time from R64, so that the
round trip compares two transcriptions. -/

namespace Sys2Proof

/-- The rows of the table, in its order (R64). -/
def Opcode.all : List Opcode :=
  [.ldi, .prn, .add, .mul, .cmp, .jmp, .jeq, .jne, .push, .pop, .call, .ret, .hlt]

/-- The opcode column of R64, as the bit patterns the source prints, bit 7 on the left (R9). -/
def Opcode.byte : Opcode → Byte
  | .ldi  => 0b10000010
  | .prn  => 0b01000111
  | .add  => 0b10100000
  | .mul  => 0b10100010
  | .cmp  => 0b10100111
  | .jmp  => 0b01010100
  | .jeq  => 0b01010101
  | .jne  => 0b01010110
  | .push => 0b01000101
  | .pop  => 0b01000110
  | .call => 0b01010000
  | .ret  => 0b00010001
  | .hlt  => 0b00000001

/-- The format column of R64. -/
def Opcode.format : Opcode → Format
  | .ldi => .opRI
  | .add | .mul | .cmp => .opRR
  | .prn | .jmp | .jeq | .jne | .push | .pop | .call => .opR
  | .ret | .hlt => .op

/-- Length in bytes of a format (R61). -/
def Format.length : Format → Nat
  | .op   => 1
  | .opR  => 2
  | .opRR => 3
  | .opRI => 3

/-- Length in bytes of a row's instruction (R62: looked up in the table, not read from a bit field). -/
def Opcode.length (o : Opcode) : Nat := o.format.length

/-- Length in bytes of an instruction. -/
def Instr.length (i : Instr) : Nat := i.opcode.length

/-- The row whose opcode equals a byte on all 8 bits, if there is one (R62, R70). -/
def Opcode.ofByte (b : Byte) : Option Opcode := Opcode.all.find? (fun o => o.byte == b)

/-- `rix(b) = b[2:0]`: the register an operand byte selects; bits 7..3 are ignored (R24, R66; the
spec's decision D3, log 5). -/
def rix (b : Byte) : RegIdx := ⟨b.toNat % 8, Nat.mod_lt _ (by decide)⟩

/-- A row's instruction with its operands taken from operand bytes `a` and `b` by its format (R70). -/
def Opcode.build (o : Opcode) (a b : Byte) : Instr :=
  match o with
  | .ldi  => .ldi (rix a) b
  | .prn  => .prn (rix a)
  | .add  => .add (rix a) (rix b)
  | .mul  => .mul (rix a) (rix b)
  | .cmp  => .cmp (rix a) (rix b)
  | .jmp  => .jmp (rix a)
  | .jeq  => .jeq (rix a)
  | .jne  => .jne (rix a)
  | .push => .push (rix a)
  | .pop  => .pop (rix a)
  | .call => .call (rix a)
  | .ret  => .ret
  | .hlt  => .hlt

/-- What the decoder answers: one of the 13 instructions, or the unknown opcode by its byte (R70:
"exactly 14 kinds of result"). -/
inductive Decoded where
  /-- A row matched. -/
  | instr (i : Instr)
  /-- No row matches the opcode byte (R65). -/
  | unknownOpcode (op : Byte)
  deriving DecidableEq, Repr

/-- The decoder, on the byte at `pc` and the two bytes after it (R70). Total. -/
def decode (op a b : Byte) : Decoded :=
  match Opcode.ofByte op with
  | some o => .instr (o.build a b)
  | none   => .unknownOpcode op

/-- The canonical operand byte of a register, `0000 0aaa` (R70). -/
def regByte (r : RegIdx) : Byte := BitVec.ofNat 8 r.val

/-- The canonical bytes of an instruction in memory order: opcode, operand A, operand B (R45, R60,
R64, R70). -/
def encode : Instr → List Byte
  | .ldi a v => [0x82, regByte a, v]
  | .prn a   => [0x47, regByte a]
  | .add a b => [0xA0, regByte a, regByte b]
  | .mul a b => [0xA2, regByte a, regByte b]
  | .cmp a b => [0xA7, regByte a, regByte b]
  | .jmp a   => [0x54, regByte a]
  | .jeq a   => [0x55, regByte a]
  | .jne a   => [0x56, regByte a]
  | .push a  => [0x45, regByte a]
  | .pop a   => [0x46, regByte a]
  | .call a  => [0x50, regByte a]
  | .ret     => [0x11]
  | .hlt     => [0x01]

/-- Byte `k` of an instruction of `nbits` bits whose bits are `w`, numbered as spec/opcode_table.json
numbers them: byte 0 is the opcode byte, bits 7..0. Every bit above `nbits` is 0. -/
def tableByte (nbits w k : Nat) : Byte := BitVec.ofNat 8 ((w % 2 ^ nbits) / 256 ^ k)

/-- The instruction the decoder reads from a word numbered as the opcode table numbers it; the bytes
are at the lowest address first (R45). -/
def decodeTableWord (nbits w : Nat) : Option Instr :=
  match decode (tableByte nbits w 0) (tableByte nbits w 1) (tableByte nbits w 2) with
  | .instr i => some i
  | .unknownOpcode _ => none

end Sys2Proof
end

