-- ==== Sys2Proof/Machine/State.lean ====
section
/-! DEFINITION. The whole state of the CORE as plain data (R20), its reset value (R33), and the named
reasons a step or a host command can stop. -/

namespace Sys2Proof.Machine

/-- The three flags, `FL.E`, `FL.L`, `FL.G` (R27). Three Booleans are as faithful as the 3-bit register
(R28, log 16). -/
structure Flags where
  /-- Equal. -/
  e : Bool
  /-- Less-than. -/
  l : Bool
  /-- Greater-than. -/
  g : Bool
  deriving DecidableEq, Repr

/-- The kinds of fault of the CORE: exactly one (R130, R131). -/
inductive FaultKind where
  | unknownOpcode
  deriving DecidableEq, Repr

/-- The run state `RS` (R29). -/
inductive RunState where
  /-- The next step executes the instruction at `pc`. -/
  | running
  /-- An HLT has been executed. -/
  | halted
  /-- The byte `op` fetched from address `addr` was no opcode of the table. -/
  | faulted (kind : FaultKind) (op : Byte) (addr : Byte)
  deriving DecidableEq, Repr

/-- The 256 cells of memory as (address, byte) pairs in one canonical form (`Memory.wf`, log 20). -/
abbrev Memory := List Host.Cell

/-- The state of the CORE, complete (R20), with the output stream `OUT` that records the run's
visible product (R20, R173). -/
structure State where
  /-- The Register File `x[0..7]`; register 7 is `SP` (R21, R22). -/
  regs : Vector Byte 8
  /-- The Program Counter (R25). -/
  pc : Byte
  /-- The Flags (R27). -/
  fl : Flags
  /-- The run state `RS` (R29). -/
  rs : RunState
  /-- Memory, `MEM[0..255]` (R40). -/
  mem : Memory
  /-- `OUT`, oldest value first (R173). -/
  out : List Byte
  deriving DecidableEq, Repr

/-- Reset (R33): the stack pointer, the pc and the run state are the source's values; the other
registers (D6, log 1), the flags (D7, log 2) and memory (D8, log 3: nothing listed, every cell reads
0x00) are the spec's decisions. -/
def State.reset : State where
  regs := #v[0x00, 0x00, 0x00, 0x00, 0x00, 0x00, 0x00, Config.spReset]
  pc   := Config.pcReset
  fl   := ⟨false, false, false⟩
  rs   := .running
  mem  := []
  out  := []

/-- Why a step can stop. Neither constructor is an event of a running machine: a running machine always
has a next state (R85), UnknownOpcode included, which is a next state with `rs` faulted (log 9). -/
inductive Fault where
  /-- Raised by `step` when `rs` is Halted: no step exists (R80, D18). Safe: the model stops exactly
  where the spec has no step. -/
  | halted
  /-- Raised by `step` when `rs` is Faulted: no step exists (R80, D18); carries the fault record
  (R175). Safe, for the same reason. -/
  | faulted (kind : FaultKind) (op : Byte) (addr : Byte)
  deriving DecidableEq, Repr

/-- Why an instruction or a host command can be turned away. No meaning answers one of these: the
spec has "no 'refused' instruction" (R85). -/
inductive Refusal where
  /-- An instruction that has no meaning in `exec`: none is left. Safe. -/
  | notModelled (mnemonic : String)
  /-- Raised by the load port on an image of more than 256 bytes (R171, D16, log 14): no run begins.
  Safe. -/
  | imageTooLong (bytes : Nat)
  /-- Raised by `Session.act` on a load after the first load or step (R150, R170, log 18). Safe. -/
  | loadOutOfOrder
  /-- Raised by `Session.act` on a step before the load (R150, R170, log 18). Safe. -/
  | stepBeforeLoad
  deriving DecidableEq, Repr

/-- What executing an instruction, or a step, answers. -/
abbrev StepResult := Host.Outcome State Fault Refusal

end Sys2Proof.Machine
end

