-- ==== Sys2Proof/Machine/Ops.lean ====
section
/-! DEFINITION. The named operations every meaning is written over: memory, registers, the stack
pointer, the pc, the output port, the run state, taking the one fault, and the fetch. -/

namespace Sys2Proof.Machine

/-! ### Memory as a canonical list -/

/-- What an address that is not listed reads as: the reset content of memory, 0x00 (R33; D8, log 3). -/
def Memory.unlisted : Byte := 0x00

/-- The byte at an address. -/
def Memory.read : Memory → Nat → Byte
  | [], _ => Memory.unlisted
  | (k, v) :: m, a => if k = a then v else Memory.read m a

/-- Drop an address from the list: it reads as unlisted afterwards. -/
def Memory.erase (a : Nat) : Memory → Memory
  | [] => []
  | (k, v) :: m => if k = a then Memory.erase a m else (k, v) :: Memory.erase a m

/-- List an address with a byte, before the first larger address. -/
def Memory.insert (a : Nat) (v : Byte) : Memory → Memory
  | [] => [(a, v)]
  | (k, w) :: m => if a < k then (a, v) :: (k, w) :: m else (k, w) :: Memory.insert a v m

/-- Store a byte, keeping the canonical form: the value an unlisted address reads as is not listed. -/
def Memory.write (m : Memory) (a : Nat) (v : Byte) : Memory :=
  if v = Memory.unlisted then Memory.erase a m else Memory.insert a v (Memory.erase a m)

/-- The list is canonical from address `lo` on: addresses strictly rising and inside the address
space, no byte equal to what an unlisted address reads as. -/
def Memory.wfFrom (lo : Nat) : Memory → Bool
  | [] => true
  | (k, v) :: m =>
    decide (lo ≤ k) && decide (k < Config.memSize) && decide (v ≠ Memory.unlisted) &&
      Memory.wfFrom (k + 1) m

/-- The canonical form of memory (log 20). -/
def Memory.wf (m : Memory) : Bool := Memory.wfFrom 0 m

namespace State

/-! ### Memory access -/

/-- `MemRead(addr, 1)`: the content of the cell `MEM[addr mod 256]` (R41, R43). -/
def memRead (s : State) (addr : Nat) : Byte := s.mem.read (addr % Config.memSize)

/-- `MemWrite(addr, 1, v)`: `MEM[addr mod 256] <- v`, nothing else (R42, R43). -/
def memWrite (s : State) (addr : Nat) (v : Byte) : State :=
  { s with mem := s.mem.write (addr % Config.memSize) v }

/-- Bytes written to consecutive addresses from `base` upward, each by `MemWrite` (R171). -/
def storeBytes (base : Nat) : List Byte → State → State
  | [], s => s
  | b :: bs, s => storeBytes (base + 1) bs (s.memWrite base b)

/-! ### Registers -/

/-- `x[i]` (R21): no register is hard-wired. -/
def getReg (s : State) (i : RegIdx) : Byte := s.regs.get i

/-- `x[i] <- v` (R21). -/
def setReg (s : State) (i : RegIdx) (v : Byte) : State :=
  { s with regs := s.regs.set i.val v i.isLt }

/-- `SP`, another spelling of `x[7]` (R22). -/
def sp (s : State) : Byte := s.getReg Config.spIndex

/-- `SP <- (SP - 1) mod 256`, with no bound and no guard (R35; D5, log 7). -/
def decSP (s : State) : State := s.setReg Config.spIndex (s.sp - 1)

/-- `SP <- (SP + 1) mod 256`, with no bound and no guard (R35; D5, log 7). -/
def incSP (s : State) : State := s.setReg Config.spIndex (s.sp + 1)

/-! ### Program counter, output port, run state -/

/-- `pc <- t` (R25). -/
def setPc (s : State) (t : Byte) : State := { s with pc := t }

/-- `pc <- (P + n) mod 256`, where `pc` still holds `P` (R25, R26; D4, log 4). -/
def advancePc (s : State) (n : Byte) : State := s.setPc (s.pc + n)

/-- `Emit(v)`: append to `OUT` (R173). -/
def emit (s : State) (v : Byte) : State := { s with out := s.out ++ [v] }

/-- `RS <- Halted`; nothing else, `pc` included (R128; D11, log 10). -/
def halt (s : State) : State := { s with rs := .halted }

/-! ### Taking the one fault; there is no return from it -/

/-- `raise UnknownOpcode(op, P)`: `RS <- Faulted(UnknownOpcode, op, P)` and no other change of state
(R131). No handler is entered, nothing is saved, no vector exists (R137); the fault is not recoverable
and the machine has no return from it (R138), so there is no operation beside this one. -/
def raiseUnknownOpcode (s : State) (op : Byte) : State :=
  { s with rs := .faulted .unknownOpcode op s.pc }

/-! ### Fetch -/

/-- The opcode byte `op` at `P` (R81). -/
def fetchOp (s : State) : Byte := s.memRead s.pc.toNat

/-- Operand byte `a` at `(P + 1) mod 256`, always fetched (R55, R81). -/
def fetchA (s : State) : Byte := s.memRead (s.pc + 1).toNat

/-- Operand byte `b` at `(P + 2) mod 256`, always fetched (R55, R81). -/
def fetchB (s : State) : Byte := s.memRead (s.pc + 2).toNat

/-- Fetch and decode (R81, R82): changes no state. -/
def fetchDecode (s : State) : Decoded := decode s.fetchOp s.fetchA s.fetchB

/-- The fault `step` answers where no step exists: `rs` is not Running (R80; D18, log 9). -/
def noStep (s : State) : Option Fault :=
  match s.rs with
  | .running => none
  | .halted => some .halted
  | .faulted k op addr => some (.faulted k op addr)

end State

end Sys2Proof.Machine
end

