-- ==== Sys2Proof/Machine/Flags.lean ====
section
/-! DEFINITION. The one flag computation of the machine, CMP's, its write, and the 3-bit packing of
the flags (R27, R28, R98). -/

namespace Sys2Proof.Machine

/-- The flags a comparison of two unsigned bytes sets: exactly one of E, L, G (R98, R10). -/
def compareFlags (va vb : Byte) : Flags :=
  if va = vb then ⟨true, false, false⟩
  else if va.toNat < vb.toNat then ⟨false, true, false⟩
  else ⟨false, false, true⟩

/-- `FL <- (e, l, g)`: all three at once (R11, R27). -/
def State.setFlags (s : State) (f : Flags) : State := { s with fl := f }

/-- The packing of R28: bit 2 = L, bit 1 = G, bit 0 = E (D9, log 16). No instruction and no interface
shows it. -/
def Flags.packed (f : Flags) : BitVec 3 :=
  BitVec.ofNat 3 (4 * f.l.toNat + 2 * f.g.toNat + f.e.toNat)

/-- At most one of the three flags is 1 (R28). -/
def Flags.legal (f : Flags) : Bool := !(f.e && f.l) && !(f.e && f.g) && !(f.l && f.g)

end Sys2Proof.Machine
end

