-- ==== Sys2Proof/Machine/Operands.lean ====
section
/-! DEFINITION. The operand forms the instructions use: a register's value, the pair of register
values the ALU takes, the return address, and the byte on top of the stack (R63, R95, R108, R120). -/

namespace Sys2Proof.Machine.State

/-- A register operand's value, the whole 8 bits (R63, R108). -/
def regOperand (s : State) (r : RegIdx) : Byte := s.getReg r

/-- `va = x[rix(a)]` and `vb = x[rix(b)]`, both read before anything is written (R95). -/
def aluOperands (s : State) (a b : RegIdx) : Byte × Byte := (s.getReg a, s.getReg b)

/-- The return address of a 2-byte CALL at `P`: `(P + 2) mod 256` (R120; D4, log 4). -/
def returnAddress (s : State) : Byte := s.pc + 2

/-- The byte at `SP`, which POP and RET load before the increment (R114, R121). -/
def stackTop (s : State) : Byte := s.memRead s.sp.toNat

/-- The address PUSH and CALL store to: the decremented stack pointer (R113, R120). -/
def pushAddr (s : State) : Byte := s.decSP.sp

/-- Store at the stack pointer, which has already been decremented (R113, R120). -/
def storeTop (s : State) (v : Byte) : State := s.memWrite s.sp.toNat v

end Sys2Proof.Machine.State
end

