-- ==== Sys2Proof/Machine/Alu.lean ====
section
/-! DEFINITION. The ALU and its three instructions ADD, MUL, CMP (R88, R95 to R99). -/

namespace Sys2Proof.Machine

/-- The operation names of the ALU: "exactly the names ADD, MUL and CMP" (R88). There is no fourth, so
UnsupportedOperation cannot be written down (R132). -/
inductive AluOp where
  | add | mul | cmp
  deriving DecidableEq, Repr

/-- `(va + vb) mod 256` on unsigned numbers; the carry is lost (R96, R99; D1, log 6). -/
def aluAdd (va vb : Byte) : Byte := BitVec.ofNat 8 ((va.toNat + vb.toNat) % 256)

/-- `(va * vb) mod 256` on unsigned numbers; bits 15..8 are lost (R97, R99; D1, log 6). -/
def aluMul (va vb : Byte) : Byte := BitVec.ofNat 8 ((va.toNat * vb.toNat) % 256)

/-- The ALU: ADD and MUL write the register named by operand A and no flag, CMP writes the three flags
and no register (R95). -/
def State.alu (s : State) (op : AluOp) (a b : RegIdx) : State :=
  let v := s.aluOperands a b
  match op with
  | .add => s.setReg a (aluAdd v.1 v.2)
  | .mul => s.setReg a (aluMul v.1 v.2)
  | .cmp => s.setFlags (compareFlags v.1 v.2)

/-- ADD (R96). -/
def execAdd (a b : RegIdx) (s : State) : StepResult := .next ((s.alu .add a b).advancePc 3)

/-- MUL (R97). -/
def execMul (a b : RegIdx) (s : State) : StepResult := .next ((s.alu .mul a b).advancePc 3)

/-- CMP (R98). -/
def execCmp (a b : RegIdx) (s : State) : StepResult := .next ((s.alu .cmp a b).advancePc 3)

end Sys2Proof.Machine
end

