-- ==== Sys2Proof/Machine/CallRet.lean ====
section
/-! DEFINITION. CALL and RET (R120, R121), on the one stack PUSH and POP use (R123). -/

namespace Sys2Proof.Machine

/-- CALL: `SP <- (SP - 1) mod 256 ; MemWrite(SP, 1, (P + 2) mod 256) ; pc <- x[rix(a)]`, the target
read after the decrement (R120; D12, log 8). -/
def execCall (a : RegIdx) (s : State) : StepResult :=
  let s1 := s.decSP
  let s2 := s1.storeTop s1.returnAddress
  .next (s2.setPc (s2.regOperand a))

/-- RET: `pc <- MemRead(SP, 1) ; SP <- (SP + 1) mod 256` (R121). -/
def execRet (s : State) : StepResult :=
  let s1 := s.setPc s.stackTop
  .next s1.incSP

end Sys2Proof.Machine
end

