-- ==== Sys2Proof/Machine/Halt.lean ====
section
/-! DEFINITION. HLT (R128). -/

namespace Sys2Proof.Machine

/-- HLT: `RS <- Halted`, nothing else; `pc` stays at the HLT (R128; D11, log 10). -/
def execHlt (s : State) : StepResult := .next s.halt

end Sys2Proof.Machine
end

