-- ==== Sys2Proof/Machine/Jumps.lean ====
section
/-! DEFINITION. The conditional branch resolver and JMP, JEQ, JNE (R105 to R109). -/

namespace Sys2Proof.Machine

/-- The jumps the resolver decides (R109). -/
inductive JumpKind where
  | jmp | jeq | jne
  deriving DecidableEq, Repr

/-- The conditional branch resolver: from the opcode and `FL.E` alone, taken or not (R109). -/
def branchTaken (k : JumpKind) (e : Bool) : Bool :=
  match k with
  | .jmp => true
  | .jeq => e
  | .jne => !e

/-- A jump: to the register's value if taken, else past the 2-byte instruction; nothing is saved
(R108). -/
def State.jump (s : State) (k : JumpKind) (a : RegIdx) : State :=
  if branchTaken k s.fl.e then s.setPc (s.regOperand a) else s.advancePc 2

/-- JMP (R105). -/
def execJmp (a : RegIdx) (s : State) : StepResult := .next (s.jump .jmp a)

/-- JEQ (R106). -/
def execJeq (a : RegIdx) (s : State) : StepResult := .next (s.jump .jeq a)

/-- JNE (R107). -/
def execJne (a : RegIdx) (s : State) : StepResult := .next (s.jump .jne a)

end Sys2Proof.Machine
end

