-- ==== Sys2Proof/Machine/LoadPrint.lean ====
section
/-! DEFINITION. LDI and PRN (R90, R91). -/

namespace Sys2Proof.Machine

/-- LDI: `x[rix(a)] <- b ; pc <- (P + 3) mod 256` (R90). -/
def execLdi (a : RegIdx) (value : Byte) (s : State) : StepResult :=
  .next ((s.setReg a value).advancePc 3)

/-- PRN: `Emit(x[rix(a)]) ; pc <- (P + 2) mod 256` (R91). -/
def execPrn (a : RegIdx) (s : State) : StepResult :=
  .next ((s.emit (s.regOperand a)).advancePc 2)

end Sys2Proof.Machine
end

