-- ==== Sys2Proof/Machine/Stack.lean ====
section
/-! DEFINITION. PUSH and POP (R113, R114). The statements run in the order written, each seeing what
the one before left, which matters when the operand is register 7 (R12; D12, log 8). -/

namespace Sys2Proof.Machine

/-- PUSH: `SP <- (SP - 1) mod 256 ; MemWrite(SP, 1, x[rix(a)]) ; pc <- (P + 2) mod 256` (R113). -/
def execPush (a : RegIdx) (s : State) : StepResult :=
  let s1 := s.decSP
  let s2 := s1.storeTop (s1.regOperand a)
  .next (s2.advancePc 2)

/-- POP: `x[rix(a)] <- MemRead(SP, 1) ; SP <- (SP + 1) mod 256 ; pc <- (P + 2) mod 256` (R114). -/
def execPop (a : RegIdx) (s : State) : StepResult :=
  let s1 := s.setReg a s.stackTop
  let s2 := s1.incSP
  .next (s2.advancePc 2)

end Sys2Proof.Machine
end

