-- ==== Sys2Proof/Machine/Step.lean ====
section
/-! DEFINITION. One step of the machine (R80 to R86), and how a word is placed for the next fetch. -/

namespace Sys2Proof.Machine

/-- One step: none exists unless `rs` is Running (R80); otherwise fetch and decode (R81, R82), then the
instruction's effect, or the fault with no other effect (R131). -/
def step (s : State) : Host.Outcome State Fault Refusal :=
  match s.noStep with
  | some f => .fault f
  | none =>
    match s.fetchDecode with
    | .instr i => exec i s
    | .unknownOpcode op => .next (s.raiseUnknownOpcode op)

/-- `s` with the instruction whose bits are `w` stored where the next step fetches, at `pc`, `pc + 1`,
`pc + 2` modulo 256 (three bytes, the longest instruction; bits above `nbits` are 0), and `rs` Running,
without which no step fetches (log 14). Nothing else changes. -/
def State.withFetchWord (s : State) (nbits w : Nat) : State :=
  { State.storeBytes s.pc.toNat [tableByte nbits w 0, tableByte nbits w 1, tableByte nbits w 2] s with
    rs := .running }

end Sys2Proof.Machine
end

