-- ==== Sys2Proof/Machine/HostPort.lean ====
section
/-! DEFINITION. The interfaces the CORE presents to the host: load port, output port, status, fault
record, debug snapshot (R157, R170 to R176). The reads change nothing. -/

namespace Sys2Proof.Machine

/-! ### Load port -/

/-- The load port: an image of at most 256 bytes is written to memory from address 0 and nothing else
changes; a longer one is refused and no run begins (R171; D16, log 14). -/
def State.loadImage (s : State) (img : List Byte) : StepResult :=
  if imageFits img then .next (State.storeBytes Config.loadBase img s)
  else .refused (.imageTooLong img.length)

/-- A launch up to the first step: reset, then load (R86, R150). -/
def launch (img : List Byte) : StepResult := State.reset.loadImage img

/-! ### Output port -/

/-- The decimal digit of a number below 10. -/
def digitChar (n : Nat) : Char := Char.ofNat ('0'.toNat + n)

/-- The minimal unsigned decimal numeral of a byte: no sign, no leading zeros (R173; D13, log 11). -/
def decimal (v : Byte) : List Char :=
  let n := v.toNat
  if n < 10 then [digitChar n]
  else if n < 100 then [digitChar (n / 10), digitChar (n % 10)]
  else [digitChar (n / 100), digitChar (n / 10 % 10), digitChar (n % 10)]

/-- The host's rendering of `OUT`: each value's numeral followed by one line feed (R173; D13, log 11). -/
def renderOut : List Byte → List Char
  | [] => []
  | v :: vs => decimal v ++ '\n' :: renderOut vs

/-! ### Status and fault record -/

/-- The code of a fault, the process exit status the source gives it (R131, R174). -/
def FaultKind.code : FaultKind → Nat
  | .unknownOpcode => 1

/-- The exit status, once the run has ended: 0 for Halted, 1 for Faulted; none while Running (R174). -/
def State.exitStatus (s : State) : Option Nat :=
  match s.rs with
  | .running => none
  | .halted => some 0
  | .faulted k _ _ => some k.code

/-- What the host reads of a fault (R175; D14, log 12). -/
structure FaultRecord where
  kind : FaultKind
  /-- The offending opcode byte. -/
  op : Byte
  /-- The address it was fetched from. -/
  addr : Byte
  deriving DecidableEq, Repr

/-- The fault record, present when `RS` is Faulted (R175). -/
def State.faultRecord (s : State) : Option FaultRecord :=
  match s.rs with
  | .running | .halted => none
  | .faulted k op addr => some ⟨k, op, addr⟩

/-! ### Debug snapshot -/

/-- What the debug snapshot returns (R144, R176). -/
structure Snapshot where
  pc : Byte
  /-- `MEM[P]`, `MEM[(P + 1) mod 256]`, `MEM[(P + 2) mod 256]`. -/
  byte0 : Byte
  byte1 : Byte
  byte2 : Byte
  /-- `x[0]` to `x[7]`. -/
  regs : Vector Byte 8
  deriving DecidableEq, Repr

/-- The debug snapshot: `pc`, the three bytes the next fetch will read, the eight registers (R176; D17,
log 15). -/
def State.snapshot (s : State) : Snapshot where
  pc := s.pc
  byte0 := s.memRead s.pc.toNat
  byte1 := s.memRead (s.pc + 1).toNat
  byte2 := s.memRead (s.pc + 2).toNat
  regs := s.regs

end Sys2Proof.Machine
end

