-- ==== Sys2Proof/Machine/Session.lean ====
section
/-! DEFINITION. The order of the host's commands: reset, load, run (R150, R170; log 18). The machine of
`step` does not need it; it says which commands the host may give when. -/

namespace Sys2Proof.Machine

/-- The three phases of a launch (R150). -/
inductive Phase where
  /-- After reset, before the load. -/
  | afterReset
  /-- After the load, before the first step. -/
  | loaded
  /-- After the first step. -/
  | run
  deriving DecidableEq, Repr

/-- The CORE and the phase its launch is in. -/
structure Session where
  phase : Phase
  core : State
  deriving DecidableEq, Repr

/-- The host's commands that change the CORE (R170). Its reads (`OUT`, `RS`, `exitStatus`, `faultRecord`,
`snapshot`) are functions of the state and change nothing. -/
inductive HostCommand where
  | reset
  | load (img : List Byte)
  | step
  deriving DecidableEq, Repr

/-- A session whose CORE is what an outcome leaves, in a phase. -/
def Session.after (p : Phase) (r : StepResult) : Host.Outcome Session Fault Refusal :=
  match r with
  | .next s => .next ⟨p, s⟩
  | .fault f => .fault f
  | .refused r => .refused r

/-- One command of the host: a reset at any time; one load, after reset and before the first step;
steps after the load (R150, R170, R171). -/
def Session.act (x : Session) (c : HostCommand) : Host.Outcome Session Fault Refusal :=
  match c, x.phase with
  | .reset, _ => .next ⟨.afterReset, State.reset⟩
  | .load img, .afterReset => Session.after .loaded (x.core.loadImage img)
  | .load _, _ => .refused .loadOutOfOrder
  | .step, .afterReset => .refused .stepBeforeLoad
  | .step, _ => Session.after .run (Sys2Proof.Machine.step x.core)

end Sys2Proof.Machine
end

