-- ==== Sys2Proof/Safety.lean ====
section
/-! DEFINITION. The terms claims use: the invariant of the machine, frames, what counts as a safe
run. -/

namespace Sys2Proof.Machine

/-- A byte is one of the 13 opcodes (R64, R65). -/
def isOpcode (b : Byte) : Bool := (Opcode.ofByte b).isSome

/-- The fault is precise (R131, R137): a faulted machine's record names the byte at `pc`, which is no
opcode. -/
def State.FaultPrecise (s : State) : Prop :=
  ∀ k op addr, s.rs = .faulted k op addr →
    addr = s.pc ∧ op = s.fetchOp ∧ isOpcode op = false

/-- The invariant of the machine: memory keeps its canonical form, at most one flag is 1 (R28), and a
recorded fault is precise (R131). -/
structure State.Inv (s : State) : Prop where
  memWf : s.mem.wf = true
  flagsLegal : s.fl.legal = true
  faultPrecise : s.FaultPrecise

/-- Every byte of memory reads as before. -/
def SameMemory (s t : State) : Prop := ∀ addr, t.memRead addr = s.memRead addr

/-- Every byte of memory reads as before, but for the cell at address `x` (all addresses that are `x`
modulo 256 name that cell, R43). -/
def SameMemoryExcept (x : Byte) (s t : State) : Prop :=
  ∀ addr, addr % 256 ≠ x.toNat → t.memRead addr = s.memRead addr

/-- Every register but those listed is unchanged. -/
def SameRegsExcept (rs : List RegIdx) (s t : State) : Prop :=
  ∀ r, r ∉ rs → t.getReg r = s.getReg r

/-- Everything but memory is the same: the registers, `pc`, the flags, the run state and `OUT` (R20). -/
def SameButMemory (s t : State) : Prop :=
  SameRegsExcept [] s t ∧ t.pc = s.pc ∧ t.fl = s.fl ∧ t.rs = s.rs ∧ t.out = s.out

/-- A machine that has halted: the normal end of a run (R129, R146). -/
def State.Halted (s : State) : Prop := s.rs = .halted

/-- A run from `s` is SAFE when no step of it takes the UnknownOpcode fault: after any number of steps
that answer a next state, the machine is not Faulted (R146). -/
def SafeRun (s : State) : Prop :=
  ∀ (n : Nat) (t : State), Host.Core.run Sys2Proof.core n s = .next t →
    ∀ k op addr, t.rs ≠ .faulted k op addr

/-- A run from `s` ends normally: after some number of steps the machine is Halted (R86, R129). -/
def RunHalts (s : State) : Prop :=
  ∃ (n : Nat) (t : State), Host.Core.run Sys2Proof.core n s = .next t ∧ t.Halted

end Sys2Proof.Machine
end

