-- ==== Sys2Proof/Certificates/Slice0/Obligations.lean ====
section
/-! DEFINITION. The statements for the provers, one per rule or group of rules of spec/. Nothing is
proved here. A clause that rests on a decision of the spec (D<n>) or on a convention of the model names
it with its log entry; such a statement has basis 'derived'. -/

open Sys2Proof Sys2Proof.Machine

/-! ## Encoding -/

/-- R70: for every instruction, decoding its canonical bytes gives it back, whatever bytes follow it in
memory. -/
def Obligations.DecodeOfEncode : Prop :=
  ∀ (i : Instr) (x y : Byte),
    let bs := encode i ++ [x, y]
    decode (bs.getD 0 0) (bs.getD 1 0) (bs.getD 2 0) = .instr i

/-- R70, last sentence: "Decoding then encoding canonically changes an instruction's bytes only in the
ignored bits 7..3 of register operands." Rests on D3 (log 5) for those bits. -/
def Obligations.EncodeOfDecode : Prop :=
  ∀ (op a b : Byte) (i : Instr), decode op a b = .instr i →
    encode i =
      match i.opcode.format with
      | .op   => [op]
      | .opR  => [op, a &&& 7]
      | .opRR => [op, a &&& 7, b &&& 7]
      | .opRI => [op, a &&& 7, b]

/-- R65: 13 opcode bytes decode to an instruction, and each of the other 243, 0x00 and 0xFF among them,
is unknown whatever follows it and raises UnknownOpcode when fetched. What the raise does is
`UnknownOpcodeTaken`. -/
def Obligations.OpcodeBytesExactly : Prop :=
  let table : List Byte :=
    [0x82, 0x47, 0xA0, 0xA2, 0xA7, 0x54, 0x55, 0x56, 0x45, 0x46, 0x50, 0x11, 0x01]
  table.length = 13 ∧ table.Nodup ∧
  ((List.range 256).filter (fun n => decide (BitVec.ofNat 8 n ∉ table))).length = 243 ∧
  0x00 ∉ table ∧ 0xFF ∉ table ∧
  (∀ op a b : Byte, op ∈ table → ∃ i, decode op a b = .instr i) ∧
  (∀ op a b : Byte, op ∉ table → decode op a b = .unknownOpcode op) ∧
  (∀ s : State, s.rs = .running → s.memRead s.pc.toNat ∉ table →
    step s = .next (s.raiseUnknownOpcode (s.memRead s.pc.toNat)))

/-- R67, R62: which instruction a byte is, and its length, depend on the opcode byte alone. -/
def Obligations.DecodingDependsOnOpcodeAlone : Prop :=
  ∀ (op a b a' b' : Byte) (i : Instr), decode op a b = .instr i →
    ∃ i', decode op a' b' = .instr i' ∧ i'.opcode = i.opcode ∧ i'.length = i.length

/-- R66: bits 7..3 of a register operand byte and the bytes beyond a short instruction select nothing.
Rests on D3 (log 5). -/
def Obligations.IgnoredBitsSelectNothing : Prop :=
  (∀ op a a' b : Byte, a.toNat % 8 = a'.toNat % 8 → decode op a b = decode op a' b) ∧
  (∀ op a b b' : Byte, op ≠ 0x82 → b.toNat % 8 = b'.toNat % 8 → decode op a b = decode op a b') ∧
  (∀ op a b b' : Byte, op ∉ [0x82, 0xA0, 0xA2, 0xA7] → decode op a b = decode op a b') ∧
  (∀ a b a' b' : Byte, decode 0x11 a b = decode 0x11 a' b' ∧ decode 0x01 a b = decode 0x01 a' b')

/-- R61, R64: a word of every row, written out from the bit patterns of the table. -/
def Obligations.WrittenOutWords : Prop :=
  decode 0b10000010 0b00000101 0b11111111 = .instr (.ldi 5 255) ∧
  decode 0b01000111 0b00000011 0 = .instr (.prn 3) ∧
  decode 0b10100000 0b00000010 0b00000110 = .instr (.add 2 6) ∧
  decode 0b10100010 0b00000110 0b00000010 = .instr (.mul 6 2) ∧
  decode 0b10100111 0b00000001 0b00000100 = .instr (.cmp 1 4) ∧
  decode 0b01010100 0b00000111 0 = .instr (.jmp 7) ∧
  decode 0b01010101 0b00000010 0 = .instr (.jeq 2) ∧
  decode 0b01010110 0b00000011 0 = .instr (.jne 3) ∧
  decode 0b01000101 0b00000100 0 = .instr (.push 4) ∧
  decode 0b01000110 0b00000101 0 = .instr (.pop 5) ∧
  decode 0b01010000 0b00000110 0 = .instr (.call 6) ∧
  decode 0b00010001 0 0 = .instr .ret ∧
  decode 0b00000001 0 0 = .instr .hlt

/-! ## The step -/

/-- R81, R82: a Running machine whose bytes at `pc`, `pc + 1`, `pc + 2` (modulo 256; D2, log 4) decode to
an instruction runs it; the step adds nothing around it (R83). -/
def Obligations.StepRunsDecoded : Prop :=
  ∀ (s : State) (i : Instr), s.rs = .running →
    decode (s.memRead s.pc.toNat) (s.memRead ((s.pc.toNat + 1) % 256))
      (s.memRead ((s.pc.toNat + 2) % 256)) = .instr i →
    step s = exec i s

/-- R82: the whole dispatch, by the opcode byte; operands from the two bytes that follow, at addresses
modulo 256 (D2, log 4), a register by the low 3 bits of its byte (D3, log 5). The effect of each
instruction is its own statement; the effect of the raise is `UnknownOpcodeTaken`. -/
def Obligations.DispatchByOpcode : Prop :=
  ∀ s : State, s.rs = .running →
    let op := s.memRead s.pc.toNat
    let a := s.memRead ((s.pc.toNat + 1) % 256)
    let b := s.memRead ((s.pc.toNat + 2) % 256)
    (op = 0x82 → step s = exec (.ldi (rix a) b) s) ∧
    (op = 0x47 → step s = exec (.prn (rix a)) s) ∧
    (op = 0xA0 → step s = exec (.add (rix a) (rix b)) s) ∧
    (op = 0xA2 → step s = exec (.mul (rix a) (rix b)) s) ∧
    (op = 0xA7 → step s = exec (.cmp (rix a) (rix b)) s) ∧
    (op = 0x54 → step s = exec (.jmp (rix a)) s) ∧
    (op = 0x55 → step s = exec (.jeq (rix a)) s) ∧
    (op = 0x56 → step s = exec (.jne (rix a)) s) ∧
    (op = 0x45 → step s = exec (.push (rix a)) s) ∧
    (op = 0x46 → step s = exec (.pop (rix a)) s) ∧
    (op = 0x50 → step s = exec (.call (rix a)) s) ∧
    (op = 0x11 → step s = exec .ret s) ∧
    (op = 0x01 → step s = exec .hlt s) ∧
    (op ∉ ([0x82, 0x47, 0xA0, 0xA2, 0xA7, 0x54, 0x55, 0x56, 0x45, 0x46, 0x50, 0x11, 0x01] : List Byte) →
      step s = .next (s.raiseUnknownOpcode op))

/-- R80: no step exists unless the machine is Running (D18; log 9: `step` answers a named fault there). -/
def Obligations.NoStepUnlessRunning : Prop :=
  ∀ s : State,
    (s.rs = .halted → step s = .fault .halted) ∧
    (∀ k op addr, s.rs = .faulted k op addr → step s = .fault (.faulted k op addr)) ∧
    (∀ t, step s = .next t → s.rs = .running)

/-- R85: while Running there is always a next state, with at most one value appended to OUT. -/
def Obligations.RunningStepIsTotal : Prop :=
  ∀ s : State, s.rs = .running →
    ∃ t, step s = .next t ∧ (t.out = s.out ∨ ∃ v, t.out = s.out ++ [v])

/-- R131, R136, R137, R175: fetching a byte that is no opcode takes the one fault: RS records the kind,
the byte and its address, and nothing else changes; the host reads code 1 and the record; no step
follows. Rests on D10, D14, D18 (log 9, log 12). -/
def Obligations.UnknownOpcodeTaken : Prop :=
  ∀ s : State, s.rs = .running →
    s.memRead s.pc.toNat ∉
      ([0x82, 0x47, 0xA0, 0xA2, 0xA7, 0x54, 0x55, 0x56, 0x45, 0x46, 0x50, 0x11, 0x01] : List Byte) →
    ∃ t, step s = .next t ∧
      t.rs = .faulted .unknownOpcode (s.memRead s.pc.toNat) s.pc ∧
      t.pc = s.pc ∧ SameRegsExcept [] s t ∧ SameMemory s t ∧ t.fl = s.fl ∧ t.out = s.out ∧
      t.exitStatus = some 1 ∧
      t.faultRecord = some ⟨.unknownOpcode, s.memRead s.pc.toNat, s.pc⟩ ∧
      step t = .fault (.faulted .unknownOpcode (s.memRead s.pc.toNat) s.pc)

/-! ## Each instruction: its encoding, that it completes in every state, its result and its frame -/

/-- R90: LDI, for every register (7 included) and every immediate. The pc wraps by D4 (log 4), the
register operand byte by D3 (log 5). -/
def Obligations.LdiResult : Prop :=
  (∀ a v : Byte, decode 0x82 a v = .instr (.ldi (rix a) v)) ∧
  ∀ (a : RegIdx) (v : Byte) (s : State), ∃ t, exec (.ldi a v) s = .next t ∧
    t.getReg a = v ∧ SameRegsExcept [a] s t ∧ SameMemory s t ∧
    t.fl = s.fl ∧ t.rs = s.rs ∧ t.out = s.out ∧ t.pc.toNat = (s.pc.toNat + 3) % 256

/-- R91: PRN appends the register's value to OUT, which the host renders as its minimal decimal numeral
and one line feed (D13, log 11), and changes nothing else but the pc, which wraps by D4 (log 4). The
register operand byte counts modulo 8 by D3 (log 5). -/
def Obligations.PrnResult : Prop :=
  (∀ a b : Byte, decode 0x47 a b = .instr (.prn (rix a))) ∧
  ∀ (a : RegIdx) (s : State), ∃ t, exec (.prn a) s = .next t ∧
    t.out = s.out ++ [s.getReg a] ∧
    renderOut t.out = renderOut s.out ++ decimal (s.getReg a) ++ ['\n'] ∧
    SameRegsExcept [] s t ∧ SameMemory s t ∧
    t.fl = s.fl ∧ t.rs = s.rs ∧ t.pc.toNat = (s.pc.toNat + 2) % 256

/-- R96: ADD, the sum modulo 256 (D1, log 6), both operands read before the write. -/
def Obligations.AddResult : Prop :=
  (∀ a b : Byte, decode 0xA0 a b = .instr (.add (rix a) (rix b))) ∧
  ∀ (a b : RegIdx) (s : State), ∃ t, exec (.add a b) s = .next t ∧
    (t.getReg a).toNat = ((s.getReg a).toNat + (s.getReg b).toNat) % 256 ∧
    SameRegsExcept [a] s t ∧ SameMemory s t ∧
    t.fl = s.fl ∧ t.rs = s.rs ∧ t.out = s.out ∧ t.pc.toNat = (s.pc.toNat + 3) % 256

/-- R97: MUL, the low 8 bits of the product (D1, log 6), both operands read before the write. -/
def Obligations.MulResult : Prop :=
  (∀ a b : Byte, decode 0xA2 a b = .instr (.mul (rix a) (rix b))) ∧
  ∀ (a b : RegIdx) (s : State), ∃ t, exec (.mul a b) s = .next t ∧
    (t.getReg a).toNat = ((s.getReg a).toNat * (s.getReg b).toNat) % 256 ∧
    SameRegsExcept [a] s t ∧ SameMemory s t ∧
    t.fl = s.fl ∧ t.rs = s.rs ∧ t.out = s.out ∧ t.pc.toNat = (s.pc.toNat + 3) % 256

/-- R98: CMP sets exactly one flag by the unsigned comparison, whatever the flags were, and changes
neither operand; and nothing else changes the flags: no other instruction, neither the halt nor the
fault. That the comparison is unsigned is the spec's own inference from R10; the pc wraps by D4 (log 4)
and register operand bytes count modulo 8 by D3 (log 5). -/
def Obligations.CmpResult : Prop :=
  (∀ a b : Byte, decode 0xA7 a b = .instr (.cmp (rix a) (rix b))) ∧
  (∀ (a b : RegIdx) (s : State), ∃ t, exec (.cmp a b) s = .next t ∧
    (t.fl.e = true ↔ (s.getReg a).toNat = (s.getReg b).toNat) ∧
    (t.fl.l = true ↔ (s.getReg a).toNat < (s.getReg b).toNat) ∧
    (t.fl.g = true ↔ (s.getReg a).toNat > (s.getReg b).toNat) ∧
    SameRegsExcept [] s t ∧ SameMemory s t ∧
    t.rs = s.rs ∧ t.out = s.out ∧ t.pc.toNat = (s.pc.toNat + 3) % 256) ∧
  (∀ (i : Instr) (s t : State), i.opcode ≠ .cmp → exec i s = .next t → t.fl = s.fl) ∧
  (∀ (s : State) (op : Byte), (s.raiseUnknownOpcode op).fl = s.fl)

/-- R105: JMP sets the pc to the register's value and changes nothing else; if the byte at the target
is no opcode, the NEXT step raises UnknownOpcode there, with the pc at the target (the raise itself is
`UnknownOpcodeTaken`); a register that holds the JMP's own address makes it repeat the state. The
register operand byte counts modulo 8 by D3 (log 5). -/
def Obligations.JmpResult : Prop :=
  (∀ a b : Byte, decode 0x54 a b = .instr (.jmp (rix a))) ∧
  (∀ (a : RegIdx) (s : State), ∃ t, exec (.jmp a) s = .next t ∧
    t.pc = s.getReg a ∧ SameRegsExcept [] s t ∧ SameMemory s t ∧
    t.fl = s.fl ∧ t.rs = s.rs ∧ t.out = s.out ∧
    (s.rs = .running → isOpcode (s.memRead (s.getReg a).toNat) = false →
      step t = .next (t.raiseUnknownOpcode (s.memRead (s.getReg a).toNat)))) ∧
  (∀ (a : RegIdx) (s : State), s.getReg a = s.pc → exec (.jmp a) s = .next s)

/-- R106: JEQ. The source's property about a CMP of equal values before it is the last clause. -/
def Obligations.JeqResult : Prop :=
  (∀ a b : Byte, decode 0x55 a b = .instr (.jeq (rix a))) ∧
  (∀ (a : RegIdx) (s : State), ∃ t, exec (.jeq a) s = .next t ∧
    (s.fl.e = true → t.pc = s.getReg a) ∧
    (s.fl.e = false → t.pc.toNat = (s.pc.toNat + 2) % 256) ∧
    SameRegsExcept [] s t ∧ SameMemory s t ∧ t.fl = s.fl ∧ t.rs = s.rs ∧ t.out = s.out) ∧
  (∀ (a b c : RegIdx) (s : State), s.getReg a = s.getReg b →
    ∃ t u, exec (.cmp a b) s = .next t ∧ exec (.jeq c) t = .next u ∧ u.pc = s.getReg c)

/-- R107: JNE. The source's property about a CMP of equal values before it is the last clause. -/
def Obligations.JneResult : Prop :=
  (∀ a b : Byte, decode 0x56 a b = .instr (.jne (rix a))) ∧
  (∀ (a : RegIdx) (s : State), ∃ t, exec (.jne a) s = .next t ∧
    (s.fl.e = false → t.pc = s.getReg a) ∧
    (s.fl.e = true → t.pc.toNat = (s.pc.toNat + 2) % 256) ∧
    SameRegsExcept [] s t ∧ SameMemory s t ∧ t.fl = s.fl ∧ t.rs = s.rs ∧ t.out = s.out) ∧
  (∀ (a b c : RegIdx) (s : State), s.getReg a = s.getReg b →
    ∃ t u, exec (.cmp a b) s = .next t ∧ exec (.jne c) t = .next u ∧
      u.pc.toNat = (t.pc.toNat + 2) % 256)

/-- R113: PUSH. The address stored to is `pushAddr`, `SP - 1` modulo 256 (D5, log 7); register 7 as the
operand is read after the decrement (D12, log 8). -/
def Obligations.PushResult : Prop :=
  (∀ a b : Byte, decode 0x45 a b = .instr (.push (rix a))) ∧
  ∀ (a : RegIdx) (s : State), ∃ t, exec (.push a) s = .next t ∧
    s.pushAddr.toNat = (s.sp.toNat + 255) % 256 ∧
    t.sp = s.pushAddr ∧ SameRegsExcept [7] s t ∧
    t.memRead s.pushAddr.toNat = (if a = 7 then s.pushAddr else s.getReg a) ∧
    SameMemoryExcept s.pushAddr s t ∧
    t.fl = s.fl ∧ t.rs = s.rs ∧ t.out = s.out ∧ t.pc.toNat = (s.pc.toNat + 2) % 256

/-- R114: POP stores nothing; the loaded byte goes to the register, then `SP` is incremented modulo 256
(D5, log 7), so with register 7 the increment applies to the loaded byte (D12, log 8). -/
def Obligations.PopResult : Prop :=
  (∀ a b : Byte, decode 0x46 a b = .instr (.pop (rix a))) ∧
  ∀ (a : RegIdx) (s : State), ∃ t, exec (.pop a) s = .next t ∧
    (a ≠ 7 → t.getReg a = s.memRead s.sp.toNat ∧ t.sp.toNat = (s.sp.toNat + 1) % 256) ∧
    (a = 7 → t.sp.toNat = ((s.memRead s.sp.toNat).toNat + 1) % 256) ∧
    SameRegsExcept [a, 7] s t ∧ SameMemory s t ∧
    t.fl = s.fl ∧ t.rs = s.rs ∧ t.out = s.out ∧ t.pc.toNat = (s.pc.toNat + 2) % 256

/-- R120: CALL stores the return address `(P + 2) mod 256` at `pushAddr` and jumps; register 7 as the
operand is read after the decrement, so the call goes to `pushAddr` (D12, log 8). -/
def Obligations.CallResult : Prop :=
  (∀ a b : Byte, decode 0x50 a b = .instr (.call (rix a))) ∧
  ∀ (a : RegIdx) (s : State), ∃ t, exec (.call a) s = .next t ∧
    s.pushAddr.toNat = (s.sp.toNat + 255) % 256 ∧
    t.sp = s.pushAddr ∧ SameRegsExcept [7] s t ∧
    (t.memRead s.pushAddr.toNat).toNat = (s.pc.toNat + 2) % 256 ∧
    SameMemoryExcept s.pushAddr s t ∧
    t.pc = (if a = 7 then s.pushAddr else s.getReg a) ∧
    t.fl = s.fl ∧ t.rs = s.rs ∧ t.out = s.out

/-- R121: RET stores nothing; the byte at the old `SP` becomes the pc and `SP` is incremented modulo 256
(D5, log 7). -/
def Obligations.RetResult : Prop :=
  (∀ a b : Byte, decode 0x11 a b = .instr .ret) ∧
  ∀ s : State, ∃ t, exec .ret s = .next t ∧
    t.pc = s.memRead s.sp.toNat ∧ t.sp.toNat = (s.sp.toNat + 1) % 256 ∧
    SameRegsExcept [7] s t ∧ SameMemory s t ∧ t.fl = s.fl ∧ t.rs = s.rs ∧ t.out = s.out

/-- R128, R174: HLT makes RS Halted and changes nothing else, the pc included (D11, log 10); the host
reads status 0; no step follows (D18, log 9). -/
def Obligations.HltResult : Prop :=
  (∀ a b : Byte, decode 0x01 a b = .instr .hlt) ∧
  ∀ s : State, ∃ t, exec .hlt s = .next t ∧
    t.rs = .halted ∧ t.pc = s.pc ∧ SameRegsExcept [] s t ∧ SameMemory s t ∧
    t.fl = s.fl ∧ t.out = s.out ∧ t.exitStatus = some 0 ∧ step t = .fault .halted

/-! ## Laws of small groups of instructions -/

/-- R90, the source's property: `LDI R,V`, `PRN R`, `HLT` one after another emit V, rendered as its
numeral and a line break, and end with status 0, for every value, register and starting state. -/
def Obligations.LdiPrnHltEmits : Prop :=
  ∀ (r : RegIdx) (v : Byte) (s : State),
    ∃ t u w, exec (.ldi r v) s = .next t ∧ exec (.prn r) t = .next u ∧ exec .hlt u = .next w ∧
      w.out = s.out ++ [v] ∧ renderOut w.out = renderOut s.out ++ decimal v ++ ['\n'] ∧
      w.exitStatus = some 0

/-- R99 (2): ADD and MUL are commutative in value, though the register written is operand A's; and
adding 0xFF subtracts 1 (R99 (4)). -/
def Obligations.AddMulCommuteInValue : Prop :=
  (∀ (a b : RegIdx) (s t u : State), exec (.add a b) s = .next t → exec (.add b a) s = .next u →
    t.getReg a = u.getReg b) ∧
  (∀ (a b : RegIdx) (s t u : State), exec (.mul a b) s = .next t → exec (.mul b a) s = .next u →
    t.getReg a = u.getReg b) ∧
  (∀ (a b : RegIdx) (s t : State), s.getReg b = 0xFF → exec (.add a b) s = .next t →
    t.getReg a = s.getReg a - 1)

/-- R98: exchanging CMP's operands exchanges Less-than and Greater-than; a register compared with
itself is Equal; after any CMP exactly one flag is 1. -/
def Obligations.CmpOperandOrder : Prop :=
  ∀ (a b : RegIdx) (s t u : State), exec (.cmp a b) s = .next t → exec (.cmp b a) s = .next u →
    u.fl = ⟨t.fl.e, t.fl.g, t.fl.l⟩ ∧ (a = b → t.fl = ⟨true, false, false⟩) ∧
    (t.fl = ⟨true, false, false⟩ ∨ t.fl = ⟨false, true, false⟩ ∨ t.fl = ⟨false, false, true⟩)

/-- R107, R109: JNE is taken exactly when JEQ with the same operand in the same state is not.
`pc + 2` wraps by D4 (log 4). -/
def Obligations.JneComplementsJeq : Prop :=
  ∀ (a : RegIdx) (s t u : State), exec (.jeq a) s = .next t → exec (.jne a) s = .next u →
    (s.fl.e = true ∧ t.pc = s.getReg a ∧ u.pc = s.pc + 2) ∨
    (s.fl.e = false ∧ t.pc = s.pc + 2 ∧ u.pc = s.getReg a)

/-! ## Rules of the whole machine -/

/-- R27: a step whose opcode is not CMP's leaves the flags alone; one whose opcode is CMP's leaves
exactly one flag 1. -/
def Obligations.FlagsWrittenOnlyByCmp : Prop :=
  ∀ s t : State, step s = .next t →
    (s.memRead s.pc.toNat ≠ 0xA7 → t.fl = s.fl) ∧
    (s.memRead s.pc.toNat = 0xA7 →
      t.fl = ⟨true, false, false⟩ ∨ t.fl = ⟨false, true, false⟩ ∨ t.fl = ⟨false, false, true⟩)

/-- R27, R109: the flags are read by JEQ and JNE only, and they read Equal only: another value of the
flags (with the same Equal, if the opcode is JEQ's or JNE's) changes nothing else in the step. -/
def Obligations.FlagsReadOnlyByConditionalJumps : Prop :=
  ∀ (s t : State) (f : Flags), step s = .next t →
    (s.memRead s.pc.toNat = 0x55 ∨ s.memRead s.pc.toNat = 0x56 → f.e = s.fl.e) →
    ∃ t', step (s.setFlags f) = .next t' ∧
      t'.pc = t.pc ∧ SameRegsExcept [] t t' ∧ SameMemory t t' ∧ t'.rs = t.rs ∧ t'.out = t.out ∧
      (s.memRead s.pc.toNat = 0xA7 → t'.fl = t.fl) ∧
      (s.memRead s.pc.toNat ≠ 0xA7 → t'.fl = f)

/-- R86: only HLT and the fault change RS. -/
def Obligations.RunStateChangedOnlyByHltOrFault : Prop :=
  ∀ s t : State, step s = .next t →
    (s.memRead s.pc.toNat = 0x01 → t.rs = .halted) ∧
    (isOpcode (s.memRead s.pc.toNat) = false →
      t.rs = .faulted .unknownOpcode (s.memRead s.pc.toNat) s.pc) ∧
    (s.memRead s.pc.toNat ≠ 0x01 → isOpcode (s.memRead s.pc.toNat) = true → t.rs = .running)

/-- R44: the only bytes of memory a step can change are the one byte PUSH or CALL stores, at `pushAddr`,
`SP - 1`.
Memory addresses are taken modulo 256 by D2 (log 4). -/
def Obligations.MemoryWrittenOnlyByPushAndCall : Prop :=
  ∀ (s t : State) (addr : Nat), step s = .next t → t.memRead addr ≠ s.memRead addr →
    (s.memRead s.pc.toNat = 0x45 ∨ s.memRead s.pc.toNat = 0x50) ∧
      addr % 256 = s.pushAddr.toNat ∧ s.pushAddr.toNat = (s.sp.toNat + 255) % 256

/-- R91, R173: OUT grows by the register's value when PRN is executed and is otherwise unchanged.
Memory addresses are taken modulo 256 by D2 (log 4). -/
def Obligations.OutputOnlyByPrn : Prop :=
  ∀ s t : State, step s = .next t →
    (s.memRead s.pc.toNat = 0x47 →
      t.out = s.out ++ [s.getReg (rix (s.memRead ((s.pc.toNat + 1) % 256)))]) ∧
    (s.memRead s.pc.toNat ≠ 0x47 → t.out = s.out)

/-- R21, R22, R35: the only registers a step can change are operand A's of LDI, ADD, MUL, POP, and
register 7 of PUSH, POP, CALL, RET.
Memory addresses are taken modulo 256 by D2 (log 4). -/
def Obligations.RegistersWrittenByStep : Prop :=
  ∀ (s t : State) (r : RegIdx), step s = .next t → t.getReg r ≠ s.getReg r →
    (s.memRead s.pc.toNat ∈ ([0x82, 0xA0, 0xA2, 0x46] : List Byte) ∧
      r = rix (s.memRead ((s.pc.toNat + 1) % 256))) ∨
    (s.memRead s.pc.toNat ∈ ([0x45, 0x46, 0x50, 0x11] : List Byte) ∧ r = 7)

/-- R26: the value each step leaves in the pc, row by row of the table of R26. The sums wrap by D4 (log
4), HLT and the fault leave the pc by D11 and D10 (log 9, log 10), CALL reads its target after the
decrement by D12 (log 8).
Memory addresses are taken modulo 256 by D2 (log 4). -/
def Obligations.PcAfterStep : Prop :=
  ∀ s t : State, step s = .next t →
    let op := s.memRead s.pc.toNat
    let a := rix (s.memRead ((s.pc.toNat + 1) % 256))
    (op ∈ ([0x82, 0xA0, 0xA2, 0xA7] : List Byte) → t.pc.toNat = (s.pc.toNat + 3) % 256) ∧
    (op ∈ ([0x47, 0x45, 0x46] : List Byte) → t.pc.toNat = (s.pc.toNat + 2) % 256) ∧
    (op = 0x54 → t.pc = s.getReg a) ∧
    (op = 0x55 → s.fl.e = true → t.pc = s.getReg a) ∧
    (op = 0x55 → s.fl.e = false → t.pc.toNat = (s.pc.toNat + 2) % 256) ∧
    (op = 0x56 → s.fl.e = false → t.pc = s.getReg a) ∧
    (op = 0x56 → s.fl.e = true → t.pc.toNat = (s.pc.toNat + 2) % 256) ∧
    (op = 0x50 → t.pc = if a = 7 then s.pushAddr else s.getReg a) ∧
    (op = 0x11 → t.pc = s.memRead s.sp.toNat) ∧
    (op = 0x01 → t.pc = s.pc) ∧
    (isOpcode op = false → t.pc = s.pc)

/-- Every step keeps the invariant: memory in canonical form (log 20), at most one flag 1 (R28), a fault
record that names the byte at `pc`, which is no opcode (R131, R137; D10). For every state, reached or
not. -/
def Obligations.StepKeepsInvariant : Prop :=
  ∀ s t : State, s.Inv → step s = .next t → t.Inv

/-- The reset state meets the invariant. -/
def Obligations.ResetMeetsInvariant : Prop := State.reset.Inv

/-! ## Memory -/

/-- R42: `MemWrite(addr, 1, v)` sets the one cell `MEM[addr mod 256]` (D2, log 4) and changes nothing
else; PUSH passes it a register's value, read after the decrement (D12, log 8), and CALL `(pc + 2) mod
256` (D4, log 4), both at `pushAddr`, `SP - 1` modulo 256 (D5, log 7). -/
def Obligations.MemWriteSetsOneCell : Prop :=
  ∀ (s : State) (addr : Nat) (v : Byte),
    (∀ x : Nat, x % 256 = addr % 256 → (s.memWrite addr v).memRead x = v) ∧
    (∀ x : Nat, x % 256 ≠ addr % 256 → (s.memWrite addr v).memRead x = s.memRead x) ∧
    SameRegsExcept [] s (s.memWrite addr v) ∧
    (s.memWrite addr v).pc = s.pc ∧ (s.memWrite addr v).fl = s.fl ∧
    (s.memWrite addr v).rs = s.rs ∧ (s.memWrite addr v).out = s.out ∧
    (∀ r, ∃ t, exec (.push r) s = .next t ∧
      t.mem = (s.memWrite s.pushAddr.toNat (s.decSP.getReg r)).mem) ∧
    (∀ r, ∃ t, exec (.call r) s = .next t ∧
      t.mem = (s.memWrite s.pushAddr.toNat (BitVec.ofNat 8 ((s.pc.toNat + 2) % 256))).mem)

/-- R47: a read of a cell returns what the last write to that address stored, or, where nothing was
written, the byte that was there (at reset or by the load); a write changes its one cell and nothing
else; and a read changes nothing: no instruction but PUSH and CALL, which write, changes a byte, neither
POP and RET, which read data, nor PRN, whose output does not go through memory. Addresses are the 256 of
the memory, so nothing here rests on the wrap. -/
def Obligations.ReadReturnsLastWrite : Prop :=
  (∀ (s : State) (ws : List (Byte × Byte)) (x : Byte),
    let t := ws.foldl (fun u w => u.memWrite w.1.toNat w.2) s
    t.memRead x.toNat =
      ((ws.reverse.find? (fun w => w.1 == x)).map Prod.snd).getD (s.memRead x.toNat) ∧
    SameButMemory s t) ∧
  (∀ (i : Instr) (s t : State), i.opcode ≠ .push → i.opcode ≠ .call → exec i s = .next t →
    SameMemory s t)

/-- Two canonical memories that read alike at the 256 addresses are the same list (log 20: the canonical
form is the model's own; R40 gives the 256 cells). -/
def Obligations.CanonicalMemoryIsUnique : Prop :=
  ∀ m m' : Memory, m.wf = true → m'.wf = true →
    (∀ a, a < 256 → m.read a = m'.read a) → m = m'

/-- R53: a stored byte is seen by the very next fetch, at each of the three positions a fetch reads. A
PUSH that stores over the next instruction's opcode, operand A or operand B, and a CALL that stores over
the opcode, operand A or operand B at its target, are followed by a fetch of the stored byte. Addresses
and the return address wrap by D2, D4, D5 (log 4, log 7); register 7 is read after the decrement by D12
(log 8). -/
def Obligations.PushedByteIsFetched : Prop :=
  (∀ (s : State) (r : RegIdx), s.rs = .running → s.fetchDecode = .instr (.push r) →
    let v := if r = 7 then s.pushAddr else s.getReg r
    ∃ t, step s = .next t ∧ t.pc = s.pc + 2 ∧ t.rs = .running ∧
      (s.pushAddr = s.pc + 2 → t.fetchOp = v) ∧
      (s.pushAddr = s.pc + 3 → t.fetchA = v) ∧
      (s.pushAddr = s.pc + 4 → t.fetchB = v)) ∧
  (∀ (s : State) (r : RegIdx), s.rs = .running → s.fetchDecode = .instr (.call r) →
    let target := s.decSP.getReg r
    ∃ t, step s = .next t ∧ t.pc = target ∧ t.rs = .running ∧
      (s.pushAddr = target → t.fetchOp = s.pc + 2) ∧
      (s.pushAddr = target + 1 → t.fetchA = s.pc + 2) ∧
      (s.pushAddr = target + 2 → t.fetchB = s.pc + 2))

/-- R55: the bytes fetched beyond the end of an instruction affect nothing, for every instruction that
has any and for the fault: with another byte `v` there before the step, the step gives its own result
with `v` there. The exceptions are where the instruction itself uses that cell as data: a POP or RET
whose stack top it is; a PUSH or CALL whose store it is, which overwrites `v`. PUSH and CALL are compared
byte by byte, since two lists of cells that read alike need not be equal unless canonical (log 20). The
addresses wrap by D2 and D5 (log 4, log 7). -/
def Obligations.UnusedFetchedBytesDoNothing : Prop :=
  ∀ (s t : State) (v : Byte), step s = .next t →
    let op := s.memRead s.pc.toNat
    (op ∈ ([0x47, 0x54, 0x55, 0x56, 0x01] : List Byte) ∨ isOpcode op = false ∨
      op ∈ ([0x46, 0x11] : List Byte) ∧ s.sp ≠ s.pc + 2 →
      step (s.memWrite (s.pc + 2).toNat v) = .next (t.memWrite (s.pc + 2).toNat v)) ∧
    (op = 0x01 ∨ isOpcode op = false ∨ op = 0x11 ∧ s.sp ≠ s.pc + 1 →
      step (s.memWrite (s.pc + 1).toNat v) = .next (t.memWrite (s.pc + 1).toNat v)) ∧
    (op ∈ ([0x45, 0x50] : List Byte) →
      ∃ t', step (s.memWrite (s.pc + 2).toNat v) = .next t' ∧ SameButMemory t t' ∧
        (s.pushAddr ≠ s.pc + 2 → SameMemory (t.memWrite (s.pc + 2).toNat v) t') ∧
        (s.pushAddr = s.pc + 2 → SameMemory t t'))

/-! ## The stack and subroutines, as two steps of the machine -/

/-- R115: PUSH R followed by POP R leaves the register and `SP` as they were, for all eight registers
and every `SP`, where the push does not overwrite the POP. The cell pushed to stays changed. Rests on
D12 (log 8) for register 7.
Memory addresses are taken modulo 256 by D2 (log 4). -/
def Obligations.PushThenPopRestores : Prop :=
  ∀ (s : State) (r : RegIdx), s.rs = .running →
    s.fetchDecode = .instr (.push r) →
    decode (s.memRead (s.pc + 2).toNat) (s.memRead (s.pc + 3).toNat) (s.memRead (s.pc + 4).toNat) =
      .instr (.pop r) →
    s.pushAddr ≠ s.pc + 2 → s.pushAddr ≠ s.pc + 3 →
    ∃ u, Host.Core.run Sys2Proof.core 2 s = .next u ∧
      u.getReg r = s.getReg r ∧ u.sp = s.sp ∧ SameRegsExcept [] s u ∧
      SameMemoryExcept s.pushAddr s u ∧ u.pc = s.pc + 4 ∧
      u.fl = s.fl ∧ u.rs = .running ∧ u.out = s.out

/-- R124: CALL followed, at its target, by RET returns to the instruction after the CALL with `SP`
restored, where the push does not overwrite the RET (which excludes a CALL of register 7: its target
is the pushed cell).
Memory addresses are taken modulo 256 by D2 (log 4). -/
def Obligations.CallThenRetReturns : Prop :=
  ∀ (s : State) (r : RegIdx), s.rs = .running →
    s.fetchDecode = .instr (.call r) →
    s.memRead (s.decSP.getReg r).toNat = 0x11 →
    s.decSP.getReg r ≠ s.pushAddr →
    ∃ u, Host.Core.run Sys2Proof.core 2 s = .next u ∧
      u.pc = s.pc + 2 ∧ u.sp = s.sp ∧ SameRegsExcept [] s u ∧
      SameMemoryExcept s.pushAddr s u ∧ u.memRead s.pushAddr.toNat = s.pc + 2 ∧
      u.fl = s.fl ∧ u.rs = .running ∧ u.out = s.out

/-! ## Reset, load, host -/

/-- R33, R151: the reset state. The stack pointer, the pc and RS are the source's values; registers 0 to
6, the flags and memory are the spec's decisions D6, D7, D8 (log 1, 2, 3). With nothing loaded the first
step takes the fault on the byte 0x00 at address 0x00 (R151). -/
def Obligations.ResetValues : Prop :=
  State.reset.sp = 0xF4 ∧ State.reset.pc = 0x00 ∧ State.reset.rs = .running ∧
  (∀ r : RegIdx, r ≠ 7 → State.reset.getReg r = 0x00) ∧
  State.reset.fl = ⟨false, false, false⟩ ∧ (∀ a, State.reset.memRead a = 0x00) ∧
  State.reset.out = [] ∧
  ∃ t, step State.reset = .next t ∧ t.rs = .faulted .unknownOpcode 0x00 0x00

/-- R171, R150: loading an image of at most 256 bytes after reset puts byte k at address k, leaves the
other cells 0x00 (D8, log 3) and everything but memory at its reset value, and meets the invariant; a
longer image is refused (D16, log 14). -/
def Obligations.LoadPutsImageAtZero : Prop :=
  ∀ img : List Byte,
    (img.length ≤ 256 → ∃ t, launch img = .next t ∧
      (∀ k, k < 256 → t.memRead k = img.getD k 0x00) ∧
      SameRegsExcept [] State.reset t ∧ t.pc = 0x00 ∧ t.fl = State.reset.fl ∧
      t.rs = .running ∧ t.out = [] ∧ t.Inv) ∧
    (256 < img.length → launch img = .refused (.imageTooLong img.length))

/-- R150, R170, R171: the host's commands come in the order reset, load, run. A reset at any time gives
the reset state. A load is accepted after reset and before the first step, exactly if the image has at
most 256 bytes (D16, log 14), and leaves the CORE the load port leaves; a step is accepted after the
load, exactly if the CORE has one, and leaves the CORE that step leaves. How an out-of-order command is
turned away is the model's (log 18). -/
def Obligations.HostCommandsInOrder : Prop :=
  ∀ x : Session,
    x.act .reset = .next ⟨.afterReset, State.reset⟩ ∧
    (∀ img y, x.act (.load img) = .next y → x.phase = .afterReset ∧ y.phase = .loaded ∧
      img.length ≤ 256 ∧ x.core.loadImage img = .next y.core) ∧
    (x.phase = .afterReset → ∀ img, img.length ≤ 256 →
      ∃ t, x.core.loadImage img = .next t ∧ x.act (.load img) = .next ⟨.loaded, t⟩) ∧
    (x.phase = .afterReset → ∀ img, 256 < img.length →
      x.act (.load img) = .refused (.imageTooLong img.length)) ∧
    (∀ y, x.act .step = .next y → x.phase ≠ .afterReset ∧ y.phase = .run ∧
      step x.core = .next y.core) ∧
    (x.phase ≠ .afterReset → ∀ t, step x.core = .next t → x.act .step = .next ⟨.run, t⟩) ∧
    (x.phase ≠ .afterReset → ∀ f, step x.core = .fault f → x.act .step = .fault f) ∧
    (x.phase = .afterReset → x.act .step = .refused .stepBeforeLoad) ∧
    (x.phase ≠ .afterReset → ∀ img, x.act (.load img) = .refused .loadOutOfOrder)

/-- R174: the exit status is a function of RS: none while Running, 0 for Halted, 1 for Faulted; a run that
never ends has none at any point. -/
def Obligations.ExitStatusOfRunState : Prop :=
  ∀ s : State,
    (s.rs = .running ↔ s.exitStatus = none) ∧
    (s.rs = .halted ↔ s.exitStatus = some 0) ∧
    ((∃ op addr, s.rs = .faulted .unknownOpcode op addr) ↔ s.exitStatus = some 1) ∧
    ((∀ n, ∃ t, Host.Core.run Sys2Proof.core n s = .next t) →
      ∀ (n : Nat) (t : State), Host.Core.run Sys2Proof.core n s = .next t → t.exitStatus = none)

/-- R176: the debug snapshot shows `pc`, the eight registers and the three bytes the next step's fetch
reads (which three: D17, log 15), so a Running machine's next instruction can be read from it.
Memory addresses are taken modulo 256 by D2 (log 4). -/
def Obligations.SnapshotShowsNextFetch : Prop :=
  ∀ s : State,
    s.snapshot.pc = s.pc ∧
    (∀ r : RegIdx, s.snapshot.regs.get r = s.getReg r) ∧
    s.snapshot.byte0 = s.memRead s.pc.toNat ∧
    s.snapshot.byte1 = s.memRead ((s.pc.toNat + 1) % 256) ∧
    s.snapshot.byte2 = s.memRead ((s.pc.toNat + 2) % 256) ∧
    (∀ i, s.rs = .running →
      decode s.snapshot.byte0 s.snapshot.byte1 s.snapshot.byte2 = .instr i → step s = exec i s)

/-- R173: the rendering of a value is its minimal unsigned decimal numeral: at least one digit, digits
only, read in base ten it is the value, and no leading zero: a numeral that begins with 0 is the single
digit 0, of the value 0 (D13, log 11). -/
def Obligations.DecimalNumeralIsMinimal : Prop :=
  ∀ v : Byte,
    (decimal v).foldl (fun n c => 10 * n + (c.toNat - '0'.toNat)) 0 = v.toNat ∧
    (decimal v).all (fun c => decide ('0'.toNat ≤ c.toNat ∧ c.toNat ≤ '9'.toNat)) = true ∧
    decimal v ≠ [] ∧
    ((decimal v).head? = some '0' → v = 0 ∧ decimal v = ['0'])

/-- The word the host places is the word the step runs, for every state and every word the decoder
accepts (`withFetchWord` is the model's, log 14). -/
def Obligations.PlacedWordIsRun : Prop :=
  ∀ (s : State) (nbits w : Nat) (i : Instr), decodeTableWord nbits w = some i →
    step (s.withFetchWord nbits w) = exec i (s.withFetchWord nbits w)

/-- R86, R129, R146: a run that reaches Halted is safe: no step of it takes the fault. -/
def Obligations.HaltingRunIsSafe : Prop :=
  ∀ s : State, RunHalts s → SafeRun s
end

