-- ==== Sys2Proof/Laws/Decode.lean ====
section
/-! SUPPORT. Small lemmas of the opcode table, the decoder and the operand bytes. -/

namespace Sys2Proof

/-- Each row's opcode byte finds its own row: the 13 patterns are pairwise distinct (R64). -/
theorem Opcode.ofByte_byte (o : Opcode) : Opcode.ofByte o.byte = some o := by
  cases o <;> rfl

/-- A byte that finds a row is that row's opcode byte. -/
theorem Opcode.byte_of_ofByte {b : Byte} {o : Opcode} (h : Opcode.ofByte b = some o) :
    o.byte = b := by
  have := List.find?_some h
  simpa using this

/-- A byte that is no opcode differs from every row's opcode byte. -/
theorem Opcode.ne_byte_of_ofByte_none {b : Byte} (h : Opcode.ofByte b = none) (o : Opcode) :
    b ≠ o.byte := by
  intro e
  rw [e, Opcode.ofByte_byte] at h
  cases h

/-- No instruction is longer than MAX_ILEN bytes (R60). -/
theorem Opcode.length_le (o : Opcode) : o.length ≤ Config.maxILen := by
  cases o <;> decide

/-- Bits 7..6 of the opcode byte are the operand count: a regularity of the 13 rows, which the decoder
does not use (R62). -/
theorem Opcode.operand_count (o : Opcode) : o.byte.toNat / 64 + 1 = o.length := by
  cases o <;> decide

/-- The canonical operand byte of a register selects that register. -/
@[simp] theorem rix_regByte (r : RegIdx) : rix (regByte r) = r := by
  revert r; decide

/-- The decoder on a row's opcode byte (R70). -/
theorem decode_byte (o : Opcode) (a b : Byte) : decode o.byte a b = .instr (o.build a b) := by
  simp [decode, Opcode.ofByte_byte]

/-- The built instruction belongs to its row. -/
theorem Opcode.build_opcode (o : Opcode) (a b : Byte) : (o.build a b).opcode = o := by
  cases o <;> rfl

/-- What the decoder can answer, once and for all (R70). -/
theorem decode_cases (op a b : Byte) :
    (∃ o : Opcode, o.byte = op ∧ decode op a b = .instr (o.build a b)) ∨
    (Opcode.ofByte op = none ∧ decode op a b = .unknownOpcode op) := by
  cases h : Opcode.ofByte op with
  | some o => exact .inl ⟨o, Opcode.byte_of_ofByte h, by simp [decode, h]⟩
  | none => exact .inr ⟨rfl, by simp [decode, h]⟩

end Sys2Proof
end

