-- ==== Sys2Proof/Laws/State.lean ====
section
/-! SUPPORT. One lemma per field per primitive update, true by rfl, and the same for the two reads
(a register, a byte of memory) where the update does not touch what is read. -/

namespace Sys2Proof.Machine.State

/-! ### `setReg` -/

@[simp] theorem setReg_regs (s : State) (i : RegIdx) (v : Byte) :
    (s.setReg i v).regs = s.regs.set i.val v i.isLt := rfl
@[simp] theorem setReg_pc (s : State) (i : RegIdx) (v : Byte) :
    (s.setReg i v).pc = s.pc := rfl
@[simp] theorem setReg_fl (s : State) (i : RegIdx) (v : Byte) :
    (s.setReg i v).fl = s.fl := rfl
@[simp] theorem setReg_rs (s : State) (i : RegIdx) (v : Byte) :
    (s.setReg i v).rs = s.rs := rfl
@[simp] theorem setReg_mem (s : State) (i : RegIdx) (v : Byte) :
    (s.setReg i v).mem = s.mem := rfl
@[simp] theorem setReg_out (s : State) (i : RegIdx) (v : Byte) :
    (s.setReg i v).out = s.out := rfl
@[simp] theorem memRead_setReg (s : State) (i : RegIdx) (v : Byte) (x : Nat) :
    (s.setReg i v).memRead x = s.memRead x := rfl

/-! ### `memWrite` -/

@[simp] theorem memWrite_regs (s : State) (addr : Nat) (v : Byte) :
    (s.memWrite addr v).regs = s.regs := rfl
@[simp] theorem memWrite_pc (s : State) (addr : Nat) (v : Byte) :
    (s.memWrite addr v).pc = s.pc := rfl
@[simp] theorem memWrite_fl (s : State) (addr : Nat) (v : Byte) :
    (s.memWrite addr v).fl = s.fl := rfl
@[simp] theorem memWrite_rs (s : State) (addr : Nat) (v : Byte) :
    (s.memWrite addr v).rs = s.rs := rfl
@[simp] theorem memWrite_mem (s : State) (addr : Nat) (v : Byte) :
    (s.memWrite addr v).mem = s.mem.write (addr % Config.memSize) v := rfl
@[simp] theorem memWrite_out (s : State) (addr : Nat) (v : Byte) :
    (s.memWrite addr v).out = s.out := rfl
@[simp] theorem getReg_memWrite (s : State) (addr : Nat) (v : Byte) (r : RegIdx) :
    (s.memWrite addr v).getReg r = s.getReg r := rfl
@[simp] theorem sp_memWrite (s : State) (addr : Nat) (v : Byte) :
    (s.memWrite addr v).sp = s.sp := rfl

/-! ### `setPc` -/

@[simp] theorem setPc_regs (s : State) (x : Byte) :
    (s.setPc x).regs = s.regs := rfl
@[simp] theorem setPc_pc (s : State) (x : Byte) :
    (s.setPc x).pc = x := rfl
@[simp] theorem setPc_fl (s : State) (x : Byte) :
    (s.setPc x).fl = s.fl := rfl
@[simp] theorem setPc_rs (s : State) (x : Byte) :
    (s.setPc x).rs = s.rs := rfl
@[simp] theorem setPc_mem (s : State) (x : Byte) :
    (s.setPc x).mem = s.mem := rfl
@[simp] theorem setPc_out (s : State) (x : Byte) :
    (s.setPc x).out = s.out := rfl
@[simp] theorem getReg_setPc (s : State) (x : Byte) (r : RegIdx) :
    (s.setPc x).getReg r = s.getReg r := rfl
@[simp] theorem sp_setPc (s : State) (x : Byte) :
    (s.setPc x).sp = s.sp := rfl
@[simp] theorem memRead_setPc (s : State) (x : Byte) (y : Nat) :
    (s.setPc x).memRead y = s.memRead y := rfl

/-! ### `emit` -/

@[simp] theorem emit_regs (s : State) (v : Byte) :
    (s.emit v).regs = s.regs := rfl
@[simp] theorem emit_pc (s : State) (v : Byte) :
    (s.emit v).pc = s.pc := rfl
@[simp] theorem emit_fl (s : State) (v : Byte) :
    (s.emit v).fl = s.fl := rfl
@[simp] theorem emit_rs (s : State) (v : Byte) :
    (s.emit v).rs = s.rs := rfl
@[simp] theorem emit_mem (s : State) (v : Byte) :
    (s.emit v).mem = s.mem := rfl
@[simp] theorem emit_out (s : State) (v : Byte) :
    (s.emit v).out = s.out ++ [v] := rfl
@[simp] theorem getReg_emit (s : State) (v : Byte) (r : RegIdx) :
    (s.emit v).getReg r = s.getReg r := rfl
@[simp] theorem sp_emit (s : State) (v : Byte) :
    (s.emit v).sp = s.sp := rfl
@[simp] theorem memRead_emit (s : State) (v : Byte) (x : Nat) :
    (s.emit v).memRead x = s.memRead x := rfl

/-! ### `halt` -/

@[simp] theorem halt_regs (s : State) :
    (s.halt).regs = s.regs := rfl
@[simp] theorem halt_pc (s : State) :
    (s.halt).pc = s.pc := rfl
@[simp] theorem halt_fl (s : State) :
    (s.halt).fl = s.fl := rfl
@[simp] theorem halt_rs (s : State) :
    (s.halt).rs = .halted := rfl
@[simp] theorem halt_mem (s : State) :
    (s.halt).mem = s.mem := rfl
@[simp] theorem halt_out (s : State) :
    (s.halt).out = s.out := rfl
@[simp] theorem getReg_halt (s : State) (r : RegIdx) :
    (s.halt).getReg r = s.getReg r := rfl
@[simp] theorem sp_halt (s : State) :
    (s.halt).sp = s.sp := rfl
@[simp] theorem memRead_halt (s : State) (x : Nat) :
    (s.halt).memRead x = s.memRead x := rfl

/-! ### `raiseUnknownOpcode` -/

@[simp] theorem raiseUnknownOpcode_regs (s : State) (op : Byte) :
    (s.raiseUnknownOpcode op).regs = s.regs := rfl
@[simp] theorem raiseUnknownOpcode_pc (s : State) (op : Byte) :
    (s.raiseUnknownOpcode op).pc = s.pc := rfl
@[simp] theorem raiseUnknownOpcode_fl (s : State) (op : Byte) :
    (s.raiseUnknownOpcode op).fl = s.fl := rfl
@[simp] theorem raiseUnknownOpcode_rs (s : State) (op : Byte) :
    (s.raiseUnknownOpcode op).rs = .faulted .unknownOpcode op s.pc := rfl
@[simp] theorem raiseUnknownOpcode_mem (s : State) (op : Byte) :
    (s.raiseUnknownOpcode op).mem = s.mem := rfl
@[simp] theorem raiseUnknownOpcode_out (s : State) (op : Byte) :
    (s.raiseUnknownOpcode op).out = s.out := rfl
@[simp] theorem getReg_raiseUnknownOpcode (s : State) (op : Byte) (r : RegIdx) :
    (s.raiseUnknownOpcode op).getReg r = s.getReg r := rfl
@[simp] theorem sp_raiseUnknownOpcode (s : State) (op : Byte) :
    (s.raiseUnknownOpcode op).sp = s.sp := rfl
@[simp] theorem memRead_raiseUnknownOpcode (s : State) (op : Byte) (x : Nat) :
    (s.raiseUnknownOpcode op).memRead x = s.memRead x := rfl

/-! ### `setFlags` -/

@[simp] theorem setFlags_regs (s : State) (f : Flags) :
    (s.setFlags f).regs = s.regs := rfl
@[simp] theorem setFlags_pc (s : State) (f : Flags) :
    (s.setFlags f).pc = s.pc := rfl
@[simp] theorem setFlags_fl (s : State) (f : Flags) :
    (s.setFlags f).fl = f := rfl
@[simp] theorem setFlags_rs (s : State) (f : Flags) :
    (s.setFlags f).rs = s.rs := rfl
@[simp] theorem setFlags_mem (s : State) (f : Flags) :
    (s.setFlags f).mem = s.mem := rfl
@[simp] theorem setFlags_out (s : State) (f : Flags) :
    (s.setFlags f).out = s.out := rfl
@[simp] theorem getReg_setFlags (s : State) (f : Flags) (r : RegIdx) :
    (s.setFlags f).getReg r = s.getReg r := rfl
@[simp] theorem sp_setFlags (s : State) (f : Flags) :
    (s.setFlags f).sp = s.sp := rfl
@[simp] theorem memRead_setFlags (s : State) (f : Flags) (x : Nat) :
    (s.setFlags f).memRead x = s.memRead x := rfl

/-! ### `advancePc`, `decSP`, `incSP`, `storeTop`: built from the updates above -/

@[simp] theorem advancePc_regs (s : State) (n : Byte) :
    (s.advancePc n).regs = s.regs := rfl
@[simp] theorem advancePc_pc (s : State) (n : Byte) :
    (s.advancePc n).pc = s.pc + n := rfl
@[simp] theorem advancePc_fl (s : State) (n : Byte) :
    (s.advancePc n).fl = s.fl := rfl
@[simp] theorem advancePc_rs (s : State) (n : Byte) :
    (s.advancePc n).rs = s.rs := rfl
@[simp] theorem advancePc_mem (s : State) (n : Byte) :
    (s.advancePc n).mem = s.mem := rfl
@[simp] theorem advancePc_out (s : State) (n : Byte) :
    (s.advancePc n).out = s.out := rfl
@[simp] theorem getReg_advancePc (s : State) (n : Byte) (r : RegIdx) :
    (s.advancePc n).getReg r = s.getReg r := rfl
@[simp] theorem sp_advancePc (s : State) (n : Byte) :
    (s.advancePc n).sp = s.sp := rfl
@[simp] theorem memRead_advancePc (s : State) (n : Byte) (x : Nat) :
    (s.advancePc n).memRead x = s.memRead x := rfl

@[simp] theorem decSP_regs (s : State) :
    (s.decSP).regs = s.regs.set 7 (s.sp - 1) := rfl
@[simp] theorem decSP_pc (s : State) :
    (s.decSP).pc = s.pc := rfl
@[simp] theorem decSP_fl (s : State) :
    (s.decSP).fl = s.fl := rfl
@[simp] theorem decSP_rs (s : State) :
    (s.decSP).rs = s.rs := rfl
@[simp] theorem decSP_mem (s : State) :
    (s.decSP).mem = s.mem := rfl
@[simp] theorem decSP_out (s : State) :
    (s.decSP).out = s.out := rfl
@[simp] theorem memRead_decSP (s : State) (x : Nat) :
    (s.decSP).memRead x = s.memRead x := rfl

@[simp] theorem incSP_regs (s : State) :
    (s.incSP).regs = s.regs.set 7 (s.sp + 1) := rfl
@[simp] theorem incSP_pc (s : State) :
    (s.incSP).pc = s.pc := rfl
@[simp] theorem incSP_fl (s : State) :
    (s.incSP).fl = s.fl := rfl
@[simp] theorem incSP_rs (s : State) :
    (s.incSP).rs = s.rs := rfl
@[simp] theorem incSP_mem (s : State) :
    (s.incSP).mem = s.mem := rfl
@[simp] theorem incSP_out (s : State) :
    (s.incSP).out = s.out := rfl
@[simp] theorem memRead_incSP (s : State) (x : Nat) :
    (s.incSP).memRead x = s.memRead x := rfl

@[simp] theorem storeTop_regs (s : State) (v : Byte) :
    (s.storeTop v).regs = s.regs := rfl
@[simp] theorem storeTop_pc (s : State) (v : Byte) :
    (s.storeTop v).pc = s.pc := rfl
@[simp] theorem storeTop_fl (s : State) (v : Byte) :
    (s.storeTop v).fl = s.fl := rfl
@[simp] theorem storeTop_rs (s : State) (v : Byte) :
    (s.storeTop v).rs = s.rs := rfl
@[simp] theorem storeTop_mem (s : State) (v : Byte) :
    (s.storeTop v).mem = s.mem.write (s.sp.toNat % Config.memSize) v := rfl
@[simp] theorem storeTop_out (s : State) (v : Byte) :
    (s.storeTop v).out = s.out := rfl
@[simp] theorem getReg_storeTop (s : State) (v : Byte) (r : RegIdx) :
    (s.storeTop v).getReg r = s.getReg r := rfl
@[simp] theorem sp_storeTop (s : State) (v : Byte) :
    (s.storeTop v).sp = s.sp := rfl

end Sys2Proof.Machine.State
end

