-- ==== Sys2Proof/Laws/Ops.lean ====
section
/-! SUPPORT. One lemma per shared operation: what it leaves in the registers, in memory and in the
canonical form of memory. -/

namespace Sys2Proof.Machine.State

/-- A register after a register write. -/
theorem getReg_setReg (s : State) (i r : RegIdx) (v : Byte) :
    (s.setReg i v).getReg r = if r = i then v else s.getReg r := by
  simp only [getReg, setReg, Vector.get_eq_getElem, Vector.getElem_set, Fin.ext_iff, eq_comm]

@[simp] theorem getReg_setReg_self (s : State) (i : RegIdx) (v : Byte) :
    (s.setReg i v).getReg i = v := by simp [getReg_setReg]

theorem getReg_setReg_ne {s : State} {i r : RegIdx} {v : Byte} (h : r ≠ i) :
    (s.setReg i v).getReg r = s.getReg r := by simp [getReg_setReg, h]

/-- The stack pointer after a register write: written through register 7, else unchanged. -/
theorem sp_setReg (s : State) (i : RegIdx) (v : Byte) :
    (s.setReg i v).sp = if i = Config.spIndex then v else s.sp := by
  simp [sp, getReg_setReg, eq_comm]

/-- Every register after the decrement of `SP` (R35). -/
theorem getReg_decSP (s : State) (r : RegIdx) :
    s.decSP.getReg r = if r = Config.spIndex then s.sp - 1 else s.getReg r := by
  simp [decSP, getReg_setReg]

/-- Every register after the increment of `SP` (R35). -/
theorem getReg_incSP (s : State) (r : RegIdx) :
    s.incSP.getReg r = if r = Config.spIndex then s.sp + 1 else s.getReg r := by
  simp [incSP, getReg_setReg]

theorem sp_decSP (s : State) : s.decSP.sp = s.sp - 1 := by simp [sp, getReg_decSP]

theorem sp_incSP (s : State) : s.incSP.sp = s.sp + 1 := by simp [sp, getReg_incSP]

/-- A byte of memory after a store, addresses modulo 256 (R42, R43). -/
theorem memRead_memWrite (s : State) (addr x : Nat) (v : Byte) :
    (s.memWrite addr v).memRead x =
      if x % Config.memSize = addr % Config.memSize then v else s.memRead x := by
  simp [memRead, memWrite, Memory.read_write]

/-- The same where both addresses are bytes, so that no sum wraps. -/
theorem memRead_memWrite_byte (s : State) (addr x v : Byte) :
    (s.memWrite addr.toNat v).memRead x.toNat = if x = addr then v else s.memRead x.toNat := by
  have hm : ∀ y : Byte, y.toNat % Config.memSize = y.toNat := fun y => Nat.mod_eq_of_lt y.isLt
  rw [memRead_memWrite, hm, hm]
  simp only [BitVec.toNat_inj]

/-- A byte of memory after a store at the stack pointer. -/
theorem memRead_storeTop (s : State) (x : Nat) (v : Byte) :
    (s.storeTop v).memRead x = if x % Config.memSize = s.sp.toNat then v else s.memRead x := by
  have h : s.sp.toNat % Config.memSize = s.sp.toNat := Nat.mod_eq_of_lt s.sp.isLt
  simp [storeTop, memRead_memWrite, h]

/-- The store address of PUSH and CALL is `SP - 1` modulo 256. -/
theorem pushAddr_eq (s : State) : s.pushAddr = s.sp - 1 := sp_decSP s

/-- Every store keeps the canonical form of memory. -/
theorem memWrite_wf {s : State} (addr : Nat) (v : Byte) (h : s.mem.wf = true) :
    (s.memWrite addr v).mem.wf = true :=
  Memory.wf_write v (Nat.mod_lt _ (by decide)) h

theorem storeTop_wf {s : State} (v : Byte) (h : s.mem.wf = true) : (s.storeTop v).mem.wf = true :=
  memWrite_wf _ v h

/-- Storing a run of bytes keeps the canonical form of memory. -/
theorem storeBytes_wf (bs : List Byte) : ∀ (base : Nat) (s : State), s.mem.wf = true →
    (State.storeBytes base bs s).mem.wf = true := by
  induction bs with
  | nil => intro base s h; exact h
  | cons b bs ih => intro base s h; exact ih (base + 1) _ (memWrite_wf base b h)

/-- Storing a run of bytes changes memory only. -/
theorem storeBytes_frame (bs : List Byte) : ∀ (base : Nat) (s : State),
    (State.storeBytes base bs s).regs = s.regs ∧ (State.storeBytes base bs s).pc = s.pc ∧
    (State.storeBytes base bs s).fl = s.fl ∧ (State.storeBytes base bs s).rs = s.rs ∧
    (State.storeBytes base bs s).out = s.out := by
  induction bs with
  | nil => intro base s; exact ⟨rfl, rfl, rfl, rfl, rfl⟩
  | cons b bs ih => intro base s; exact ih (base + 1) (s.memWrite base b)

/-- Reset memory is canonical. -/
theorem reset_mem_wf : State.reset.mem.wf = true := rfl

/-- No step exists exactly when the run state is not Running (R80). -/
theorem noStep_eq_none_iff (s : State) : s.noStep = none ↔ s.rs = .running := by
  unfold noStep
  cases s.rs <;> simp

end Sys2Proof.Machine.State
end

