-- ==== Sys2Proof/Laws/Exec.lean ====
section
/-! SUPPORT. The ALU and the jump by case, and each arm of `exec` as the next state it gives; later
proofs cite these and unfold no meaning. -/

namespace Sys2Proof.Machine

theorem State.alu_add (s : State) (a b : RegIdx) :
    s.alu .add a b = s.setReg a (aluAdd (s.getReg a) (s.getReg b)) := rfl

theorem State.alu_mul (s : State) (a b : RegIdx) :
    s.alu .mul a b = s.setReg a (aluMul (s.getReg a) (s.getReg b)) := rfl

theorem State.alu_cmp (s : State) (a b : RegIdx) :
    s.alu .cmp a b = s.setFlags (compareFlags (s.getReg a) (s.getReg b)) := rfl

/-- The value ADD writes, as a number (R96). -/
theorem aluAdd_toNat (va vb : Byte) : (aluAdd va vb).toNat = (va.toNat + vb.toNat) % 256 := by
  simp [aluAdd]

/-- The value MUL writes, as a number (R97). -/
theorem aluMul_toNat (va vb : Byte) : (aluMul va vb).toNat = (va.toNat * vb.toNat) % 256 := by
  simp [aluMul]

/-- A jump writes the pc and nothing else. -/
theorem State.jump_eq (s : State) (k : JumpKind) (a : RegIdx) :
    s.jump k a = s.setPc (if branchTaken k s.fl.e then s.getReg a else s.pc + 2) := by
  unfold State.jump
  split <;> rfl

theorem exec_ldi (a : RegIdx) (v : Byte) (s : State) :
    exec (.ldi a v) s = .next ((s.setReg a v).advancePc 3) := rfl
theorem exec_prn (a : RegIdx) (s : State) :
    exec (.prn a) s = .next ((s.emit (s.getReg a)).advancePc 2) := rfl
theorem exec_add (a b : RegIdx) (s : State) :
    exec (.add a b) s = .next ((s.alu .add a b).advancePc 3) := rfl
theorem exec_mul (a b : RegIdx) (s : State) :
    exec (.mul a b) s = .next ((s.alu .mul a b).advancePc 3) := rfl
theorem exec_cmp (a b : RegIdx) (s : State) :
    exec (.cmp a b) s = .next ((s.alu .cmp a b).advancePc 3) := rfl
theorem exec_jmp (a : RegIdx) (s : State) : exec (.jmp a) s = .next (s.jump .jmp a) := rfl
theorem exec_jeq (a : RegIdx) (s : State) : exec (.jeq a) s = .next (s.jump .jeq a) := rfl
theorem exec_jne (a : RegIdx) (s : State) : exec (.jne a) s = .next (s.jump .jne a) := rfl
theorem exec_push (a : RegIdx) (s : State) :
    exec (.push a) s = .next ((s.decSP.storeTop (s.decSP.getReg a)).advancePc 2) := rfl
theorem exec_pop (a : RegIdx) (s : State) :
    exec (.pop a) s = .next ((s.setReg a s.stackTop).incSP.advancePc 2) := rfl
theorem exec_call (a : RegIdx) (s : State) :
    exec (.call a) s =
      .next ((s.decSP.storeTop s.returnAddress).setPc (s.decSP.getReg a)) := rfl
theorem exec_ret (s : State) : exec .ret s = .next (s.setPc s.stackTop).incSP := rfl
theorem exec_hlt (s : State) : exec .hlt s = .next s.halt := rfl

end Sys2Proof.Machine
end

