-- ==== Sys2Proof/Laws/Flags.lean ====
section
/-! SUPPORT. The flag computation: the three outcomes of a comparison. -/

namespace Sys2Proof.Machine

theorem compareFlags_eq {va vb : Byte} (h : va = vb) :
    compareFlags va vb = ⟨true, false, false⟩ := by simp [compareFlags, h]

theorem compareFlags_lt {va vb : Byte} (h : va.toNat < vb.toNat) :
    compareFlags va vb = ⟨false, true, false⟩ := by
  have hne : va ≠ vb := fun e => by simp [e] at h
  simp [compareFlags, hne, h]

theorem compareFlags_gt {va vb : Byte} (h : vb.toNat < va.toNat) :
    compareFlags va vb = ⟨false, false, true⟩ := by
  have hne : va ≠ vb := fun e => by simp [e] at h
  have hlt : ¬ va.toNat < vb.toNat := by omega
  simp [compareFlags, hne, hlt]

/-- A comparison leaves the flags legal: exactly one is 1. -/
theorem compareFlags_legal (va vb : Byte) : (compareFlags va vb).legal = true := by
  unfold compareFlags
  split
  · rfl
  · split <;> rfl

end Sys2Proof.Machine
end

