-- ==== Sys2Proof/Laws/HostPort.lean ====
section
/-! SUPPORT. The load port's check, and the rendering of a longer output. -/

namespace Sys2Proof.Machine

/-- The load port's check as an inequality (R171). -/
theorem imageFits_iff (img : List Byte) : imageFits img = true ↔ img.length ≤ 256 :=
  decide_eq_true_iff

/-- Rendering goes value by value (R173). -/
theorem renderOut_append (l l' : List Byte) : renderOut (l ++ l') = renderOut l ++ renderOut l' := by
  induction l with
  | nil => rfl
  | cons a l ih => simp [renderOut, ih]

end Sys2Proof.Machine
end

