-- ==== Sys2Proof/Laws/PerInstr.lean ====
section
/-! SUPPORT. Families of statements about the instruction as syntax, one lemma per constructor.

`Length`: the canonical bytes begin with the row's opcode byte and are as many as the row's format says,
at most MAX_ILEN (R60, R62, R64); and the regularity R62 derives, bits 7..6 of the opcode byte are the
operand count. -/

namespace Sys2Proof.Laws.Length

/-- The encoded bytes of an instruction agree with its row of the opcode table. -/
def Statement (i : Instr) : Prop :=
  (encode i).head? = some i.opcode.byte ∧ (encode i).length = i.length ∧
    i.length ≤ Config.maxILen ∧ i.opcode.byte.toNat / 64 + 1 = i.length

theorem ldi (a : RegIdx) (v : Byte) : Statement (.ldi a v) := ⟨rfl, rfl, Opcode.length_le _, Opcode.operand_count _⟩
theorem prn (a : RegIdx) : Statement (.prn a) := ⟨rfl, rfl, Opcode.length_le _, Opcode.operand_count _⟩
theorem add (a b : RegIdx) : Statement (.add a b) := ⟨rfl, rfl, Opcode.length_le _, Opcode.operand_count _⟩
theorem mul (a b : RegIdx) : Statement (.mul a b) := ⟨rfl, rfl, Opcode.length_le _, Opcode.operand_count _⟩
theorem cmp (a b : RegIdx) : Statement (.cmp a b) := ⟨rfl, rfl, Opcode.length_le _, Opcode.operand_count _⟩
theorem jmp (a : RegIdx) : Statement (.jmp a) := ⟨rfl, rfl, Opcode.length_le _, Opcode.operand_count _⟩
theorem jeq (a : RegIdx) : Statement (.jeq a) := ⟨rfl, rfl, Opcode.length_le _, Opcode.operand_count _⟩
theorem jne (a : RegIdx) : Statement (.jne a) := ⟨rfl, rfl, Opcode.length_le _, Opcode.operand_count _⟩
theorem push (a : RegIdx) : Statement (.push a) := ⟨rfl, rfl, Opcode.length_le _, Opcode.operand_count _⟩
theorem pop (a : RegIdx) : Statement (.pop a) := ⟨rfl, rfl, Opcode.length_le _, Opcode.operand_count _⟩
theorem call (a : RegIdx) : Statement (.call a) := ⟨rfl, rfl, Opcode.length_le _, Opcode.operand_count _⟩
theorem ret : Statement .ret := ⟨rfl, rfl, Opcode.length_le _, Opcode.operand_count _⟩
theorem hlt : Statement .hlt := ⟨rfl, rfl, Opcode.length_le _, Opcode.operand_count _⟩

end Sys2Proof.Laws.Length
end

