-- ==== Sys2Proof/Laws/Step.lean ====
section
/-! SUPPORT. Everything a step can do, said once (R80, R82, R131). -/

namespace Sys2Proof.Machine

/-- The fetched operand bytes, at addresses written as R81 writes them. -/
theorem State.fetchA_eq (s : State) : s.fetchA = s.memRead ((s.pc.toNat + 1) % 256) := by
  simp [State.fetchA]

theorem State.fetchB_eq (s : State) : s.fetchB = s.memRead ((s.pc.toNat + 2) % 256) := by
  simp [State.fetchB]

/-- The step of a Running machine whose byte at `pc` is a row's opcode byte (R82). -/
theorem step_of_row {s : State} {o : Opcode} (hr : s.rs = .running)
    (ho : s.memRead s.pc.toNat = o.byte) : step s = exec (o.build s.fetchA s.fetchB) s := by
  have hd : s.fetchDecode = .instr (o.build s.fetchA s.fetchB) := by
    rw [State.fetchDecode, State.fetchOp, ho, decode_byte]
  simp only [step, (State.noStep_eq_none_iff s).2 hr, hd]

/-- The step of a Running machine whose byte at `pc` is no opcode (R131). -/
theorem step_of_unknown {s : State} (hr : s.rs = .running)
    (hn : Opcode.ofByte (s.memRead s.pc.toNat) = none) :
    step s = .next (s.raiseUnknownOpcode (s.memRead s.pc.toNat)) := by
  have hd : s.fetchDecode = .unknownOpcode (s.memRead s.pc.toNat) := by
    simp only [State.fetchDecode, State.fetchOp, decode, hn]
  simp only [step, (State.noStep_eq_none_iff s).2 hr, hd]

/-- If a step answers a next state, the machine was Running and either the fetched instruction was
executed or the fetched byte was no opcode and the fault was taken. -/
theorem step_cases {s t : State} (h : step s = .next t) :
    s.rs = .running ∧
    ((∃ i, s.fetchDecode = .instr i ∧ exec i s = .next t) ∨
     (∃ op, s.fetchDecode = .unknownOpcode op ∧ t = s.raiseUnknownOpcode op)) := by
  unfold step at h
  cases hn : s.noStep with
  | some f => rw [hn] at h; cases h
  | none =>
    rw [hn] at h
    refine ⟨(State.noStep_eq_none_iff s).1 hn, ?_⟩
    cases hd : s.fetchDecode with
    | instr i => rw [hd] at h; exact .inl ⟨i, rfl, h⟩
    | unknownOpcode op => rw [hd] at h; cases h; exact .inr ⟨op, rfl, rfl⟩

/-- The same by the row of the opcode table: a step executes the row whose opcode byte is at `pc`, or
takes the fault on a byte that is no row's. -/
theorem step_cases_row {s t : State} (h : step s = .next t) :
    s.rs = .running ∧
    ((∃ o : Opcode, s.memRead s.pc.toNat = o.byte ∧
        exec (o.build s.fetchA s.fetchB) s = .next t) ∨
     (Opcode.ofByte (s.memRead s.pc.toNat) = none ∧
        t = s.raiseUnknownOpcode (s.memRead s.pc.toNat))) := by
  obtain ⟨hr, hc⟩ := step_cases h
  refine ⟨hr, ?_⟩
  have hf : s.fetchDecode = decode s.fetchOp s.fetchA s.fetchB := rfl
  rcases decode_cases s.fetchOp s.fetchA s.fetchB with ⟨o, ho, hd⟩ | ⟨hn, hd⟩
  · rcases hc with ⟨i, hi, he⟩ | ⟨op, hi, _⟩
    · rw [hf, hd] at hi; cases hi; exact .inl ⟨o, ho.symm, he⟩
    · rw [hf, hd] at hi; cases hi
  · rcases hc with ⟨i, hi, _⟩ | ⟨op, hi, ht⟩
    · rw [hf, hd] at hi; cases hi
    · rw [hf, hd] at hi; cases hi; exact .inr ⟨hn, ht⟩

end Sys2Proof.Machine
end

