-- ==== Sys2Proof/Machine/Loader.lean ====
section
/-! DEFINITION. The external loader's program file, from characters to the bytes the load port takes
(R69, R134, R172). The spec keeps the loader outside the CORE (R5); this is its text format as R69
words it, so that a program file can be placed beside the model. No step depends on it. -/

namespace Sys2Proof.Machine.Loader

/-- The one failure of the loader's text: a line, counted from 0, whose stripped content is no 8-bit
binary literal (R130, R134). It happens before any run begins. -/
inductive LoadError where
  | malformedProgramLine (line : Nat)
  deriving DecidableEq, Repr

/-- What parsing a program file gives. -/
inductive Parsed where
  | image (bytes : List Byte)
  | error (e : LoadError)
  deriving DecidableEq, Repr

/-- The blanks that stripping removes: space, tab, carriage return (PRESUMED, log 19). -/
def isBlank (c : Char) : Bool := c == ' ' || c == '\t' || c == '\r'

/-- Cut a text at its line feeds. -/
def splitLines : List Char → List (List Char)
  | [] => [[]]
  | c :: cs =>
    if c == '\n' then [] :: splitLines cs
    else match splitLines cs with
      | [] => [[c]]
      | l :: ls => (c :: l) :: ls

/-- Everything from `#` onward is discarded (R69), then blanks at both ends. -/
def strip (l : List Char) : List Char :=
  let body := (l.takeWhile (· != '#')).dropWhile isBlank
  (body.reverse.dropWhile isBlank).reverse

/-- A binary literal's value so far, most significant bit first (R9). -/
def bitsValue : Nat → List Char → Option Nat
  | n, [] => some n
  | n, c :: cs =>
    if c == '0' then bitsValue (2 * n) cs
    else if c == '1' then bitsValue (2 * n + 1) cs
    else none

/-- A byte written as an 8-character string of `0` and `1` (R69). -/
def parseByte (l : List Char) : Option Byte :=
  if l.length = 8 then (bitsValue 0 l).map (BitVec.ofNat 8) else none

/-- The lines from number `n` on: blank and comment-only lines are skipped, every other line is one byte
of the image (R69). -/
def parseLines (n : Nat) : List (List Char) → Parsed
  | [] => .image []
  | l :: ls =>
    if strip l = [] then parseLines (n + 1) ls
    else match parseByte (strip l) with
      | none => .error (.malformedProgramLine n)
      | some b =>
        match parseLines (n + 1) ls with
        | .image bs => .image (b :: bs)
        | .error e => .error e

/-- The image a program file stands for (R69). -/
def parse (text : List Char) : Parsed := parseLines 0 (splitLines text)

end Sys2Proof.Machine.Loader
end

