-- ==== Sys2Proof/Tests/Slice0.lean ====
section
/-! SUPPORT. Tests. Expected values are the vectors of spec/95_test_vectors.md (each test names its
vector), the worked examples of the rules, and the table of R100; and one witness per statement that
has hypotheses. -/

namespace Sys2Proof.Tests

open Sys2Proof Sys2Proof.Machine

/-! ### Small states and what a step leaves in them -/

/-- The reset state with a pc, some registers, flags and memory cells set. -/
def st (pc : Byte) (regs : List (RegIdx × Byte)) (fl : Flags) (cells : List (Nat × Byte)) : State :=
  let s : State := { State.reset with pc := pc, fl := fl }
  let s := regs.foldl (fun s c => s.setReg c.1 c.2) s
  cells.foldl (fun s c => s.memWrite c.1 c.2) s

/-- No flag, E, L, G. -/
def flNone : Flags := ⟨false, false, false⟩
def flE : Flags := ⟨true, false, false⟩
def flL : Flags := ⟨false, true, false⟩
def flG : Flags := ⟨false, false, true⟩

/-- What a read gives of the next state, if there is one. -/
def of {α : Type} (f : State → α) : StepResult → Option α
  | .next t => some (f t)
  | .fault _ => none
  | .refused _ => none

/-- The next state, if there is one (the reset state otherwise). -/
def nextOf : StepResult → State
  | .next t => t
  | .fault _ => State.reset
  | .refused _ => State.reset

/-! ### Well-formedness smoke -/

/-- An image of 257 bytes does not fit; one of 256 does (R171, D16). -/
theorem test_imageFits_refuses_257 :
    imageFits (List.replicate 257 0x01) = false ∧ imageFits (List.replicate 256 0x01) = true := by
  rw [imageFits, imageFits, List.length_replicate, List.length_replicate]; decide

/-- Operand byte 0x0A is not canonical; 0x07 is (R70). -/
theorem test_regByteCanonical_refuses_0A :
    regByteCanonical 0x0A = false ∧ regByteCanonical 0x07 = true := by decide

/-! ### Decoding: words written out bit by bit from R61 and R64 -/

theorem test_decode_ldi : decode 0b10000010 0b00000101 0b11111111 = .instr (.ldi 5 255) := by decide
theorem test_decode_prn : decode 0b01000111 0b00000011 0b10101010 = .instr (.prn 3) := by decide
theorem test_decode_add : decode 0b10100000 0b00000010 0b00000110 = .instr (.add 2 6) := by decide
theorem test_decode_mul : decode 0b10100010 0b00000110 0b00000010 = .instr (.mul 6 2) := by decide
theorem test_decode_cmp : decode 0b10100111 0b00000001 0b00000100 = .instr (.cmp 1 4) := by decide
theorem test_decode_jmp : decode 0b01010100 0b00000111 0b00000000 = .instr (.jmp 7) := by decide
theorem test_decode_jeq : decode 0b01010101 0b00000010 0b00000000 = .instr (.jeq 2) := by decide
theorem test_decode_jne : decode 0b01010110 0b00000011 0b00000000 = .instr (.jne 3) := by decide
theorem test_decode_push : decode 0b01000101 0b00000100 0b00000000 = .instr (.push 4) := by decide
theorem test_decode_pop : decode 0b01000110 0b00000101 0b00000000 = .instr (.pop 5) := by decide
theorem test_decode_call : decode 0b01010000 0b00000110 0b00000000 = .instr (.call 6) := by decide
theorem test_decode_ret : decode 0b00010001 0b00000000 0b00000000 = .instr .ret := by decide
theorem test_decode_hlt : decode 0b00000001 0b00000000 0b00000000 = .instr .hlt := by decide

/-- R66: `82 08 2A` and `82 00 2A` are the same instruction. -/
theorem test_decode_ignored_bits :
    decode 0x82 0x08 0x2A = .instr (.ldi 0 0x2A) ∧ decode 0xA0 0xFD 0xFA = .instr (.add 5 2) := by
  decide

/-- The near misses of the decoder check of spec/95_test_vectors.md section 2.7. -/
theorem test_decode_near_misses :
    [0x00, 0x02, 0x10, 0x12, 0x44, 0x48, 0x51, 0x52, 0x53, 0x57, 0x80, 0x81, 0x83, 0xA1, 0xA3, 0xA6,
      0xA8].all (fun op => decode op 0 0 == .unknownOpcode op) = true := by decide

/-- The opcode table's numbering: byte 0 is bits 7..0, byte 1 bits 15..8, byte 2 bits 23..16. -/
theorem test_decodeTableWord :
    decodeTableWord 24 0x080382 = some (.ldi 3 8) ∧ decodeTableWord 16 0xFF0247 = some (.prn 2) ∧
      decodeTableWord 8 0x11 = some .ret ∧ decodeTableWord 8 0x00 = none := by decide

/-! ### One step per instruction (spec/95_test_vectors.md section 2) -/

/-- V-LDI-5: the instruction spans the top of memory. -/
theorem test_ldi_spans_top :
    let r := step (st 0xFE [] flNone [(0xFE, 0x82), (0xFF, 0x01), (0x00, 0x33)])
    of (·.getReg 1) r = some 0x33 ∧ of (·.pc) r = some 0x01 := by decide

/-- V-LDI-2: register 7 as an explicit operand moves the stack. -/
theorem test_ldi_sp :
    let r := step (st 0x10 [] flNone [(0x10, 0x82), (0x11, 0x07), (0x12, 0x80)])
    of (·.sp) r = some 0x80 ∧ of (·.pc) r = some 0x13 := by decide

/-- V-PRN-3: index 0A wraps to 2; FF is printed as 255. -/
theorem test_prn_index_wraps :
    let r := step (st 0x00 [(2, 0xFF)] flNone [(0, 0x47), (1, 0x0A)])
    of (·.out) r = some [0xFF] ∧ of (fun t => renderOut t.out) r = some ['2', '5', '5', '\n'] := by
  decide

/-- V-PRN-4: operand fetched from address 00 after the wrap. -/
theorem test_prn_operand_wraps :
    let r := step (st 0xFF [(3, 0x09)] flNone [(0xFF, 0x47), (0x00, 0x03)])
    of (·.out) r = some [9] ∧ of (·.pc) r = some 0x01 := by decide

/-- V-ADD-1: 200 + 100 = 44 modulo 256. -/
theorem test_add_wraps :
    let r := step (st 0x06 [(0, 0xC8), (1, 0x64)] flNone [(6, 0xA0), (7, 0), (8, 1)])
    of (·.getReg 0) r = some 0x2C ∧ of (·.getReg 1) r = some 0x64 ∧ of (·.pc) r = some 0x09 := by
  decide

/-- V-ADD-2, V-ADD-4: same register twice; ADD writes no flag. -/
theorem test_add_doubles_keeps_flags :
    let r := step (st 0x00 [(2, 0x90)] flL [(0, 0xA0), (1, 2), (2, 2)])
    of (·.getReg 2) r = some 0x20 ∧ of (·.fl) r = some flL := by decide

/-- V-MUL-2: 255 * 255 = FE01, low byte 01. -/
theorem test_mul_low_byte :
    let r := step (st 0x00 [(3, 0xFF), (4, 0xFF)] flNone [(0, 0xA2), (1, 3), (2, 4)])
    of (·.getReg 3) r = some 0x01 ∧ of (·.getReg 4) r = some 0xFF := by decide

/-- V-MUL-1: 8 * 9 = 72 into operand A's register. -/
theorem test_mul :
    let r := step (st 0x06 [(0, 0x08), (1, 0x09)] flNone [(6, 0xA2), (7, 0), (8, 1)])
    of (·.getReg 0) r = some 0x48 ∧ of (·.pc) r = some 0x09 := by decide

/-- V-CMP-3: greater than; the old E is cleared. -/
theorem test_cmp_greater_clears_equal :
    let r := step (st 0x00 [(0, 3), (1, 5)] flE [(0, 0xA7), (1, 1), (2, 0)])
    of (·.fl) r = some flG ∧ of (·.getReg 1) r = some 5 := by decide

/-- V-CMP-5 with operands exchanged: unsigned, 7F is less than 80. -/
theorem test_cmp_unsigned :
    let r := step (st 0x00 [(0, 0x80), (1, 0x7F)] flNone [(0, 0xA7), (1, 0), (2, 1)])
    of (·.fl) r = some flG ∧ compareFlags 0x7F 0x80 = flL ∧ compareFlags 0x80 0x80 = flE := by decide

/-- V-JMP-1. -/
theorem test_jmp :
    of (·.pc) (step (st 0x14 [(3, 0x0C)] flNone [(0x14, 0x54), (0x15, 3)])) = some 0x0C := by decide

/-- V-JMP-3: target from the stack pointer. -/
theorem test_jmp_sp :
    of (·.pc) (step (st 0x00 [] flNone [(0, 0x54), (1, 7)])) = some 0xF4 := by decide

/-- V-JEQ-1 and V-JEQ-2: taken on E, not on L. -/
theorem test_jeq :
    of (·.pc) (step (st 0x20 [(2, 0x40)] flE [(0x20, 0x55), (0x21, 2)])) = some 0x40 ∧
      of (·.pc) (step (st 0x20 [(2, 0x40)] flL [(0x20, 0x55), (0x21, 2)])) = some 0x22 := by decide

/-- V-JEQ-4: not taken; `pc + 2` wraps. -/
theorem test_jeq_wraps :
    of (·.pc) (step (st 0xFF [(2, 0x40)] flG [(0xFF, 0x55), (0x00, 2)])) = some 0x01 := by decide

/-- V-JNE-3: taken before any CMP. -/
theorem test_jne_at_reset :
    of (·.pc) (step (st 0x14 [(3, 0x0C)] flNone [(0x14, 0x56), (0x15, 3)])) = some 0x0C := by decide

/-- V-JNE-4: not taken; `pc + 2` wraps to 00. -/
theorem test_jne_wraps :
    of (·.pc) (step (st 0xFE [(3, 0x0C)] flE [(0xFE, 0x56), (0xFF, 3)])) = some 0x00 := by decide

/-- V-PUSH-2: the stack pointer wraps 00 to FF. -/
theorem test_push_wraps :
    let r := step (st 0x10 [(1, 0xAB), (7, 0x00)] flNone [(0x10, 0x45), (0x11, 1)])
    of (·.sp) r = some 0xFF ∧ of (·.memRead 0xFF) r = some 0xAB ∧ of (·.pc) r = some 0x12 := by decide

/-- V-PUSH-3: operand register 7, the decremented value is stored. -/
theorem test_push_sp :
    let r := step (st 0x00 [] flNone [(0, 0x45), (1, 7)])
    of (·.sp) r = some 0xF3 ∧ of (·.memRead 0xF3) r = some 0xF3 := by decide

/-- V-POP-2: the stack pointer wraps FF to 00. -/
theorem test_pop_wraps :
    let r := step (st 0x00 [(7, 0xFF)] flNone [(0, 0x46), (1, 2), (0xFF, 0x77)])
    of (·.getReg 2) r = some 0x77 ∧ of (·.sp) r = some 0x00 ∧ of (·.memRead 0xFF) r = some 0x77 := by
  decide

/-- V-POP-3: operand register 7, loaded 20, then incremented. -/
theorem test_pop_sp :
    of (·.sp) (step (st 0x00 [(7, 0xF3)] flNone [(0, 0x46), (1, 7), (0xF3, 0x20)])) = some 0x21 := by
  decide

/-- V-CALL-3: return address FF + 2 wraps to 01. -/
theorem test_call_return_wraps :
    let r := step (st 0xFF [(1, 0x30)] flNone [(0xFF, 0x50), (0x00, 1)])
    of (·.sp) r = some 0xF3 ∧ of (·.memRead 0xF3) r = some 0x01 ∧ of (·.pc) r = some 0x30 := by decide

/-- V-CALL-5, first step: operand register 7, the target is read after the decrement. -/
theorem test_call_sp :
    let r := step (st 0x10 [] flNone [(0x10, 0x50), (0x11, 7)])
    of (·.pc) r = some 0xF3 ∧ of (·.memRead 0xF3) r = some 0x12 := by decide

/-- V-RET-2: the stack pointer wraps. -/
theorem test_ret_wraps :
    let r := step (st 0x0E [(7, 0xFF)] flNone [(0x0E, 0x11), (0xFF, 0x42)])
    of (·.pc) r = some 0x42 ∧ of (·.sp) r = some 0x00 := by decide

/-- V-RET-3: return on an empty stack, no fault. -/
theorem test_ret_empty :
    let r := step (st 0x0E [] flNone [(0x0E, 0x11)])
    of (·.pc) r = some 0x00 ∧ of (·.sp) r = some 0xF5 := by decide

/-- V-HLT-2: the unused operand fetches wrap and are harmless. -/
theorem test_hlt_at_top :
    let r := step (st 0xFF [] flNone [(0xFF, 0x01)])
    of (·.rs) r = some .halted ∧ of (·.pc) r = some 0xFF ∧ of (·.exitStatus) r = some (some 0) := by
  decide

/-- V-HLT-3: an operand byte reached as an opcode. -/
theorem test_hlt_in_operand :
    of (·.rs) (step (st 0x02 [] flNone [(0, 0x82), (1, 0x00), (2, 0x01)])) = some .halted := by decide

/-- V-UNK-3: a byte one away from LDI; the fault freezes the state. -/
theorem test_unknown_freezes :
    let r := step (st 0x40 [(0, 1), (1, 2)] flG [(0x40, 0x83)])
    of (·.rs) r = some (.faulted .unknownOpcode 0x83 0x40) ∧ of (·.pc) r = some 0x40 ∧
      of (·.fl) r = some flG ∧ of (·.getReg 1) r = some 2 ∧ of (·.exitStatus) r = some (some 1) := by
  decide

/-- V-UNK-2: nothing loaded; 00 is no NOP. -/
theorem test_unknown_empty_image :
    of (·.rs) (step State.reset) = some (.faulted .unknownOpcode 0x00 0x00) := by decide

/-- V-UNK-5: no step exists from Halted. -/
theorem test_no_step_when_halted : of (·.pc) (step State.reset.halt) = none := by decide

/-! ### The table of R100 -/

/-- One row: va, vb, ADD, MUL, CMP. -/
abbrev AluRow := Byte × Byte × Byte × Byte × Flags

def aluRows : List AluRow :=
  [(0x00, 0x00, 0x00, 0x00, flE), (0x00, 0x01, 0x01, 0x00, flL), (0x01, 0x00, 0x01, 0x00, flG),
   (0x01, 0x01, 0x02, 0x01, flE), (0x7F, 0x01, 0x80, 0x7F, flG), (0x7F, 0x80, 0xFF, 0x80, flL),
   (0x80, 0x7F, 0xFF, 0x80, flG), (0x80, 0x80, 0x00, 0x00, flE)] ++
  [(0x80, 0x02, 0x82, 0x00, flG), (0xFF, 0x01, 0x00, 0xFF, flG), (0x01, 0xFF, 0x00, 0xFF, flL),
   (0xFF, 0xFF, 0xFE, 0x01, flE), (0xFF, 0x02, 0x01, 0xFE, flG), (0x10, 0x10, 0x20, 0x00, flE),
   (0x0F, 0x11, 0x20, 0xFF, flL), (0xC8, 0x64, 0x2C, 0x20, flG), (0x08, 0x09, 0x11, 0x48, flL)]

theorem test_alu_corner_table :
    aluRows.all (fun r => aluAdd r.1 r.2.1 == r.2.2.1 && aluMul r.1 r.2.1 == r.2.2.2.1 &&
      decide (compareFlags r.1 r.2.1 = r.2.2.2.2)) = true := by decide

/-! ### Memory, fetch word, load port, loader, session, snapshot -/

/-- Writing the value an unlisted address reads as removes the entry; entries stay in order. -/
theorem test_memory_canonical :
    ((State.reset.memWrite 5 1).memWrite 2 7).mem = [(2, 7), (5, 1)] ∧
      (((State.reset.memWrite 5 1).memWrite 2 7).memWrite 5 0).mem = [(2, 7)] ∧
      (State.reset.memWrite 258 7).mem = [(2, 7)] := by decide

/-- The host's word is the next step's instruction, as the first instruction after reset. -/
theorem test_withFetchWord :
    of (·.getReg 3) (step (State.reset.withFetchWord 24 0x080382)) = some 8 ∧
      of (·.rs) (step (State.reset.withFetchWord 8 0x01)) = some .halted := by decide

/-- R171: byte k of the image at address k. -/
theorem test_load_image :
    let r := launch [0x82, 0x00, 0x08, 0x47, 0x00, 0x01]
    of (·.memRead 3) r = some 0x47 ∧ of (·.memRead 6) r = some 0x00 ∧ of (·.pc) r = some 0x00 := by
  decide

/-- R69: a line with a comment, a blank line, a comment-only line, and a plain line. -/
theorem test_loader_lines :
    Loader.parse
      (['1','0','0','0','0','0','1','0',' ','#','x','\n','\n','#','y','\n',
        '0','0','0','0','1','0','0','0','\n']) = .image [0x82, 0x08] := by decide

/-- R134: a line that is no 8-bit binary literal. -/
theorem test_loader_malformed :
    Loader.parse (['0','0','0','0','0','0','0','1','\n','0','2']) =
      .error (.malformedProgramLine 1) := by decide

/-- R150, R170: a step before the load is turned away; after the load it is taken. -/
theorem test_session_order :
    (match (Session.mk .afterReset State.reset).act .step with
      | .refused .stepBeforeLoad => true | _ => false) = true ∧
    (match (Session.mk .afterReset State.reset).act (.load [0x01]) with
      | .next y => decide (y.phase = .loaded) && (match y.act .step with
          | .next z => decide (z.core.rs = .halted) | _ => false)
      | _ => false) = true := by decide

/-- R176 at the reset state with V-LDI-1's image. -/
theorem test_snapshot :
    let s := st 0x00 [] flNone [(0, 0x82), (1, 0x00), (2, 0x08)]
    s.snapshot.byte0 = 0x82 ∧ s.snapshot.byte2 = 0x08 ∧ s.snapshot.regs.get 7 = 0xF4 := by decide

/-- R173: 0 is `0`, 8 is `8`, 255 is `255`; and where the number of digits changes. -/
theorem test_decimal_numerals :
    decimal 0 = ['0'] ∧ decimal 8 = ['8'] ∧ decimal 255 = ['2', '5', '5'] ∧ decimal 9 = ['9'] ∧
      decimal 10 = ['1', '0'] ∧ decimal 99 = ['9', '9'] ∧ decimal 100 = ['1', '0', '0'] := by decide

/-- DecimalNumeralIsMinimal, last clause: the numeral of 0 begins with 0. -/
theorem witness_leading_zero : (decimal 0).head? = some '0' := by decide

/-- R28: the legal packed values. -/
theorem test_flags_packed :
    flNone.packed = 0b000 ∧ flE.packed = 0b001 ∧ flG.packed = 0b010 ∧ flL.packed = 0b100 := by decide

/-! ### Witnesses: for each statement with hypotheses, a state and operands that meet them -/

/-- A Running state with `op`, then operand bytes 03 and 04, at `pc`. -/
def sOp (pc op : Byte) : State :=
  st pc [(3, 0x50), (4, 0x22)] flL
    [(pc.toNat, op), ((pc + 1).toNat, 0x03), ((pc + 2).toNat, 0x04), (0xF4, 0x6B)]

/-- The 13 opcodes and two bytes that are none. -/
def opBytes : List Byte :=
  [0x82, 0x47, 0xA0, 0xA2, 0xA7, 0x54, 0x55, 0x56, 0x45, 0x46, 0x50, 0x11, 0x01, 0x00, 0xFF]

/-- For every clause of DispatchByOpcode, OpcodeBytesExactly, UnknownOpcodeTaken, RunningStepIsTotal,
FlagsWrittenOnlyByCmp, RunStateChangedOnlyByHltOrFault, OutputOnlyByPrn, PcAfterStep: a Running state
with that opcode byte that has a next state, in the middle of memory and at its top (the wrap). -/
theorem witness_every_opcode_steps :
    ([0x40, 0xFD, 0xFE, 0xFF] : List Byte).all (fun pc => opBytes.all (fun op =>
      decide ((sOp pc op).rs = .running) && decide ((sOp pc op).memRead pc.toNat = op) &&
        (of (·.pc) (step (sOp pc op))).isSome)) = true := by decide

/-- Conditional jumps with Equal set (the other flag states are in `sOp`): PcAfterStep, JeqResult,
JneResult. -/
theorem witness_equal_set :
    let s := st 0x40 [(3, 0x50)] flE [(0x40, 0x55), (0x41, 3)]
    let s' := st 0xFE [(3, 0x50)] flE [(0xFE, 0x56), (0xFF, 3)]
    step s = .next (nextOf (step s)) ∧ step s' = .next (nextOf (step s')) ∧ s.fl.e = true ∧
      (sOp 0x40 0x55).fl.e = false := ⟨rfl, rfl, rfl, rfl⟩

/-- EncodeOfDecode, DecodingDependsOnOpcodeAlone. -/
theorem witness_decode_instr : decode 0xA0 0xFF 0x08 = .instr (.add 7 0) := by decide

/-- IgnoredBitsSelectNothing, each premise, at 0x07 and 0xFF. -/
theorem witness_ignored_bits :
    (0x07 : Byte).toNat % 8 = (0xFF : Byte).toNat % 8 ∧ (0xA0 : Byte) ≠ 0x82 ∧
      (0x47 : Byte) ∉ ([0x82, 0xA0, 0xA2, 0xA7] : List Byte) := by decide

/-- StepRunsDecoded, SnapshotShowsNextFetch: an instruction that wraps over the top of memory. -/
theorem witness_decoded_at_top :
    let s := sOp 0xFE 0xA0
    s.rs = .running ∧ decode (s.memRead s.pc.toNat) (s.memRead ((s.pc.toNat + 1) % 256))
      (s.memRead ((s.pc.toNat + 2) % 256)) = .instr (.add 3 4) := by decide

/-- NoStepUnlessRunning, ExitStatusOfRunState: each run state. -/
theorem witness_run_states :
    State.reset.halt.rs = .halted ∧
      (State.reset.raiseUnknownOpcode 0xFF).rs = .faulted .unknownOpcode 0xFF 0x00 ∧
      State.reset.rs = .running := ⟨rfl, rfl, rfl⟩

/-- UnknownOpcodeTaken: the source's byte FF. -/
theorem witness_unknown_opcode :
    (sOp 0xFF 0xFF).rs = .running ∧ (sOp 0xFF 0xFF).memRead (sOp 0xFF 0xFF).pc.toNat = 0xFF ∧
      isOpcode 0xFF = false := by decide

/-- JmpResult: a Running machine whose target is no opcode, and a register that holds the JMP's own
address. -/
theorem witness_jmp :
    let s := st 0x40 [(3, 0x80), (4, 0x40)] flNone [(0x40, 0x54)]
    s.rs = .running ∧ isOpcode (s.memRead (s.getReg 3).toNat) = false ∧ s.getReg 4 = s.pc := by decide

/-- JeqResult, JneResult: two registers with equal values. -/
theorem witness_equal_registers : (st 0 [(1, 9), (2, 9)] flNone []).getReg 1 =
    (st 0 [(1, 9), (2, 9)] flNone []).getReg 2 := by decide

/-- AddMulCommuteInValue (with operand B 0xFF), CmpOperandOrder, JneComplementsJeq: next states exist. -/
theorem witness_alu_next :
    let s := st 0x40 [(1, 9), (2, 0xFF)] flNone []
    exec (.add 1 2) s = .next (nextOf (exec (.add 1 2) s)) ∧
    exec (.add 2 1) s = .next (nextOf (exec (.add 2 1) s)) ∧
    exec (.mul 1 2) s = .next (nextOf (exec (.mul 1 2) s)) ∧
    exec (.mul 2 1) s = .next (nextOf (exec (.mul 2 1) s)) ∧
    exec (.cmp 1 2) s = .next (nextOf (exec (.cmp 1 2) s)) ∧
    exec (.cmp 2 1) s = .next (nextOf (exec (.cmp 2 1) s)) ∧
    exec (.jeq 1) s = .next (nextOf (exec (.jeq 1) s)) ∧
    exec (.jne 1) s = .next (nextOf (exec (.jne 1) s)) ∧ s.getReg 2 = 0xFF :=
  ⟨rfl, rfl, rfl, rfl, rfl, rfl, rfl, rfl, rfl⟩

/-- FlagsReadOnlyByConditionalJumps: a JEQ with other flags of the same Equal, and a PRN with another
Equal. -/
theorem witness_other_flags :
    step (sOp 0x40 0x55) = .next (nextOf (step (sOp 0x40 0x55))) ∧
      (sOp 0x40 0x55).memRead 0x40 = 0x55 ∧ flG.e = (sOp 0x40 0x55).fl.e ∧ flG ≠ (sOp 0x40 0x55).fl ∧
      step (sOp 0x40 0x47) = .next (nextOf (step (sOp 0x40 0x47))) ∧ flE.e ≠ (sOp 0x40 0x47).fl.e :=
  ⟨rfl, by decide, by decide, by decide, rfl, by decide⟩

/-- MemoryWrittenOnlyByPushAndCall: a PUSH and a CALL that change a byte of memory. -/
theorem witness_memory_changes :
    (nextOf (step (sOp 0x40 0x45))).memRead 0xF3 ≠ (sOp 0x40 0x45).memRead 0xF3 ∧
      (nextOf (step (sOp 0x40 0x50))).memRead 0xF3 ≠ (sOp 0x40 0x50).memRead 0xF3 := by decide

/-- RegistersWrittenByStep: each opcode that writes a register changes one here. -/
theorem witness_register_changes :
    ([0x82, 0xA0, 0xA2, 0x46] : List Byte).all (fun op =>
      decide ((nextOf (step (sOp 0x40 op))).getReg 3 ≠ (sOp 0x40 op).getReg 3)) = true ∧
    ([0x45, 0x46, 0x50, 0x11] : List Byte).all (fun op =>
      decide ((nextOf (step (sOp 0x40 op))).getReg 7 ≠ (sOp 0x40 op).getReg 7)) = true := by decide

/-- StepKeepsInvariant: a state with memory, a flag and a next state that meets the invariant. -/
theorem witness_invariant : (sOp 0x40 0x45).Inv ∧
    step (sOp 0x40 0x45) = .next (nextOf (step (sOp 0x40 0x45))) :=
  ⟨⟨by decide, by decide, fun _ _ _ h => by cases h⟩, rfl⟩

/-- CanonicalMemoryIsUnique: a canonical memory with cells at both ends of the address space. -/
theorem witness_canonical_memory :
    Memory.wf [(0, 0x82), (255, 0x01)] = true ∧ Memory.wf [(1, 0x00)] = false ∧
      Memory.wf [(2, 0x01), (1, 0x01)] = false ∧ Memory.wf [(256, 0x01)] = false := by decide

/-- PushedByteIsFetched: a PUSH onto the next opcode, operand A and operand B, the last two over the top
of memory; a CALL of register 7, and CALLs that store onto their target's operand A and, over the top,
operand B. -/
theorem witness_push_over_next :
    ([(0x00, 0x03, 2), (0xFE, 0x02, 3), (0xFB, 0x00, 4)] : List (Byte × Byte × Byte)).all (fun c =>
      let s := st c.1 [(0, 0xFF), (7, c.2.1)] flNone [(c.1.toNat, 0x45), ((c.1 + 1).toNat, 0)]
      decide (s.rs = .running) && decide (s.fetchDecode = .instr (.push 0)) &&
        decide (s.pushAddr = s.pc + c.2.2)) = true ∧
    (let s := st 0x10 [] flNone [(0x10, 0x50), (0x11, 7)]
     s.rs = .running ∧ s.fetchDecode = .instr (.call 7) ∧ s.pushAddr = s.decSP.getReg 7) ∧
    ([(0x80, 0x82, 1), (0xFF, 0x02, 2)] : List (Byte × Byte × Byte)).all (fun c =>
      let s := st 0x10 [(1, c.1), (7, c.2.1)] flNone [(0x10, 0x50), (0x11, 1)]
      decide (s.rs = .running) && decide (s.fetchDecode = .instr (.call 1)) &&
        decide (s.pushAddr = s.decSP.getReg 1 + c.2.2)) = true := by decide

/-- R53, worked by hand: at `P` = 0xFB, `PUSH R0` with `SP` = 0x00 stores 0xFF at 0xFF, which is
operand B of the instruction at 0xFD. -/
theorem test_pushed_operand_is_fetched :
    let r := step (st 0xFB [(0, 0xFF), (7, 0x00)] flNone [(0xFB, 0x45), (0xFC, 0)])
    of (·.pc) r = some 0xFD ∧ of (·.fetchB) r = some 0xFF := by decide

/-- UnusedFetchedBytesDoNothing: each form, near the top of memory, and the fault; `SP` is neither
`pc + 1` nor `pc + 2`, and the store is not at `pc + 2`. -/
theorem witness_unused_bytes :
    ([0x47, 0x54, 0x55, 0x56, 0x45, 0x46, 0x50, 0x11, 0x01, 0x00] : List Byte).all (fun op =>
      let s := sOp 0xFE op
      decide (s.memRead s.pc.toNat = op) && (of (·.pc) (step s)).isSome &&
        decide (s.sp ≠ s.pc + 1) && decide (s.sp ≠ s.pc + 2) && decide (s.pushAddr ≠ s.pc + 2)) = true ∧
    isOpcode 0x00 = false := by decide

/-- UnusedFetchedBytesDoNothing, last clause: a PUSH and a CALL that store at `pc + 2`. -/
theorem witness_store_on_unused_byte :
    ([0x45, 0x50] : List Byte).all (fun op =>
      let s := sOp 0xF1 op
      decide (s.memRead s.pc.toNat = op) && (of (·.pc) (step s)).isSome &&
        decide (s.pushAddr = s.pc + 2)) = true := by decide

/-- ReadReturnsLastWrite: two writes to one cell, the last wins; a POP has a next state. -/
theorem witness_last_write :
    ((State.reset.memWrite 0xFF 1).memWrite 0xFF 2).memRead 0xFF = 2 ∧
      Instr.opcode (.pop 3) ≠ .push ∧ Instr.opcode (.pop 3) ≠ .call ∧
      (of (·.pc) (exec (.pop 3) (sOp 0x40 0x46))).isSome = true := by decide

/-- PushThenPopRestores: an ordinary register, and register 7 with `SP` at 0x00 (V-STK-5, V-STK-6). -/
theorem witness_push_pop :
    ([(3, 0x80), (7, 0x00)] : List (RegIdx × Byte)).all (fun c =>
      let s := st 0x10 [(7, c.2)] flNone
        [(0x10, 0x45), (0x11, regByte c.1), (0x12, 0x46), (0x13, regByte c.1)]
      decide (s.rs = .running) && decide (s.fetchDecode = .instr (.push c.1)) &&
      decide (decode (s.memRead (s.pc + 2).toNat) (s.memRead (s.pc + 3).toNat)
        (s.memRead (s.pc + 4).toNat) = .instr (.pop c.1)) &&
      decide (s.pushAddr ≠ s.pc + 2) && decide (s.pushAddr ≠ s.pc + 3)) = true := by decide

/-- CallThenRetReturns: V-CR-1. -/
theorem witness_call_ret :
    let s := st 0x20 [(4, 0x90), (7, 0xC0)] flNone [(0x20, 0x50), (0x21, 4), (0x90, 0x11)]
    s.rs = .running ∧ s.fetchDecode = .instr (.call 4) ∧
      s.memRead (s.decSP.getReg 4).toNat = 0x11 ∧ s.decSP.getReg 4 ≠ s.pushAddr := by decide

/-- LoadPutsImageAtZero: images of 0, 256 and 257 bytes. -/
theorem witness_image_lengths :
    ([] : List Byte).length ≤ 256 ∧ (List.replicate 256 (0x01 : Byte)).length ≤ 256 ∧
      256 < (List.replicate 257 (0x01 : Byte)).length := by
  rw [List.length_replicate, List.length_replicate]; decide

/-- HostCommandsInOrder: a load and a step that answer a next state (the lengths 0, 256, 257 of an image
are `witness_image_lengths`), and a step of a Halted CORE, which answers the fault. -/
theorem witness_host_commands :
    (∃ y, (Session.mk .afterReset State.reset).act (.load [0x01]) = .next y) ∧
      (∃ y, (Session.mk .loaded (sOp 0x40 0x47)).act .step = .next y) ∧
      step (sOp 0x40 0x47) = .next (nextOf (step (sOp 0x40 0x47))) ∧
      step State.reset.halt = .fault .halted ∧ Phase.run ≠ .afterReset :=
  ⟨⟨_, rfl⟩, ⟨_, rfl⟩, rfl, rfl, by decide⟩

/-- PlacedWordIsRun. -/
theorem witness_table_word : decodeTableWord 24 0x0400A0 = some (.add 0 4) := by decide

/-- HaltingRunIsSafe: one HLT at 0x40. -/
theorem witness_run_halts : RunHalts (sOp 0x40 0x01) := by
  refine ⟨1, nextOf (step (sOp 0x40 0x01)), ?_, rfl⟩
  have h : Sys2Proof.core.step (sOp 0x40 0x01) = .next (nextOf (step (sOp 0x40 0x01))) := rfl
  simp only [Host.Core.run, h]

/-- Every instruction completes in a concrete state, register 7 included (the completion statements
have no hypotheses). -/
theorem witness_every_instruction_completes :
    [Instr.ldi 7 1, .prn 7, .add 7 7, .mul 7 7, .cmp 7 7, .jmp 7, .jeq 7, .jne 7, .push 7, .pop 7,
      .call 7, .ret, .hlt].all (fun i => (of (·.pc) (exec i (sOp 0x40 0x00))).isSome) = true := by
  decide

end Sys2Proof.Tests
end

section
/-! Memory as its readers see it (R47): a list of stores reads back last write first, changes nothing
but memory, and no instruction but PUSH and CALL stores. -/

namespace Sys2Proof.Machine

/-! ### Frames -/

theorem SameButMemory.refl (s : State) : SameButMemory s s :=
  ⟨fun _ _ => rfl, rfl, rfl, rfl, rfl⟩

theorem SameButMemory.trans {s t u : State} (hst : SameButMemory s t) (htu : SameButMemory t u) :
    SameButMemory s u := by
  obtain ⟨hregs, hpc, hfl, hrs, hout⟩ := hst
  obtain ⟨hregs', hpc', hfl', hrs', hout'⟩ := htu
  exact ⟨fun r hr => (hregs' r hr).trans (hregs r hr), hpc'.trans hpc, hfl'.trans hfl,
    hrs'.trans hrs, hout'.trans hout⟩

theorem sameButMemory_memWrite (s : State) (addr : Nat) (v : Byte) :
    SameButMemory s (s.memWrite addr v) :=
  ⟨fun r _ => State.getReg_memWrite s addr v r, rfl, rfl, rfl, rfl⟩

/-- A state with the very same memory reads alike at every address. -/
theorem sameMemory_of_mem_eq {s t : State} (h : t.mem = s.mem) : SameMemory s t := fun addr => by
  rw [State.memRead, State.memRead, h]

/-! ### A list of stores -/

/-- The writes (address, byte) of a list, in its order. -/
def State.memWrites (s : State) (ws : List (Byte × Byte)) : State :=
  ws.foldl (fun u w => u.memWrite w.1.toNat w.2) s

/-- The byte of the last write of a list to an address, if one wrote it. -/
def lastWrite (ws : List (Byte × Byte)) (x : Byte) : Option Byte :=
  (ws.reverse.find? (fun w => w.1 == x)).map Prod.snd

@[simp] theorem State.memWrites_nil (s : State) : s.memWrites [] = s := rfl

theorem State.memWrites_concat (s : State) (ws : List (Byte × Byte)) (w : Byte × Byte) :
    s.memWrites (ws ++ [w]) = (s.memWrites ws).memWrite w.1.toNat w.2 := by
  simp [State.memWrites]

@[simp] theorem lastWrite_nil (x : Byte) : lastWrite [] x = none := rfl

theorem lastWrite_concat (ws : List (Byte × Byte)) (w : Byte × Byte) (x : Byte) :
    lastWrite (ws ++ [w]) x = if x = w.1 then some w.2 else lastWrite ws x := by
  by_cases hx : x = w.1
  · simp [lastWrite, hx]
  · simp [lastWrite, hx, Ne.symm hx]

/-- Read after a list of writes: by the last one first, as `memWrites` runs. -/
theorem State.memRead_memWrites (s : State) (ws : List (Byte × Byte)) (x : Byte) :
    (s.memWrites ws).memRead x.toNat = (lastWrite ws x).getD (s.memRead x.toNat) := by
  induction ws using List.reverseRecOn with
  | nil => simp
  | append_singleton ws w ih =>
    rw [memWrites_concat, memRead_memWrite_byte, lastWrite_concat, ih]
    split <;> rfl

theorem sameButMemory_memWrites (s : State) (ws : List (Byte × Byte)) :
    SameButMemory s (s.memWrites ws) := by
  induction ws using List.reverseRecOn with
  | nil => exact SameButMemory.refl s
  | append_singleton ws w ih =>
    rw [State.memWrites_concat]
    exact ih.trans (sameButMemory_memWrite _ _ _)

/-! ### The instructions that do not store -/

@[simp] theorem State.jump_mem (s : State) (k : JumpKind) (a : RegIdx) : (s.jump k a).mem = s.mem := by
  rw [State.jump_eq, State.setPc_mem]

/-- Every instruction but PUSH and CALL completes, with the memory it found. -/
theorem exec_next_with_same_mem {i : Instr} (hpush : i.opcode ≠ .push) (hcall : i.opcode ≠ .call)
    (s : State) : ∃ t, exec i s = .next t ∧ t.mem = s.mem := by
  cases i with
  | ldi a v => exact ⟨_, exec_ldi a v s, rfl⟩
  | prn a => exact ⟨_, exec_prn a s, rfl⟩
  | add a b => exact ⟨_, exec_add a b s, rfl⟩
  | mul a b => exact ⟨_, exec_mul a b s, rfl⟩
  | cmp a b => exact ⟨_, exec_cmp a b s, rfl⟩
  | jmp a => exact ⟨_, exec_jmp a s, s.jump_mem .jmp a⟩
  | jeq a => exact ⟨_, exec_jeq a s, s.jump_mem .jeq a⟩
  | jne a => exact ⟨_, exec_jne a s, s.jump_mem .jne a⟩
  | push a => exact absurd rfl hpush
  | pop a => exact ⟨_, exec_pop a s, rfl⟩
  | call a => exact absurd rfl hcall
  | ret => exact ⟨_, exec_ret s, rfl⟩
  | hlt => exact ⟨_, exec_hlt s, rfl⟩

theorem exec_sameMemory {i : Instr} {s t : State} (hpush : i.opcode ≠ .push)
    (hcall : i.opcode ≠ .call) (h : exec i s = .next t) : SameMemory s t := by
  obtain ⟨u, hu, hmem⟩ := exec_next_with_same_mem hpush hcall s
  obtain rfl : u = t := Host.Outcome.next.inj (hu.symm.trans h)
  exact sameMemory_of_mem_eq hmem

/-- Settles O52: the writes by induction from the last one back, the instructions row by row. -/
theorem readReturnsLastWrite : Obligations.ReadReturnsLastWrite := by
  unfold Obligations.ReadReturnsLastWrite
  exact ⟨fun s ws x => ⟨s.memRead_memWrites ws x, sameButMemory_memWrites s ws⟩,
    fun _ _ _ hpush hcall h => exec_sameMemory hpush hcall h⟩

end Sys2Proof.Machine
end

section
/-! The opcode bytes as a set (R65): the opcode column of R64 has no repetition, its bytes are those that
find a row, and every other byte takes the fault. -/

namespace Sys2Proof

/-- The opcode column of the table, in its order (R64). -/
def Opcode.bytes : List Byte := Opcode.all.map Opcode.byte

theorem Opcode.mem_all (o : Opcode) : o ∈ Opcode.all := by cases o <;> decide

theorem Opcode.byte_injective : Function.Injective Opcode.byte := fun o o' h =>
  Option.some.inj ((Opcode.ofByte_byte o).symm.trans (h ▸ Opcode.ofByte_byte o'))

theorem Opcode.bytes_nodup : Opcode.bytes.Nodup :=
  List.Nodup.map Opcode.byte_injective (by decide)

theorem Opcode.mem_bytes_iff {b : Byte} : b ∈ Opcode.bytes ↔ ∃ o : Opcode, o.byte = b := by
  simp [Opcode.bytes, Opcode.mem_all]

/-- The decoder's lookup fails exactly on the bytes outside the column (R65). -/
theorem Opcode.ofByte_eq_none_iff {b : Byte} : Opcode.ofByte b = none ↔ b ∉ Opcode.bytes := by
  constructor
  · intro hnone hmem
    obtain ⟨o, ho⟩ := Opcode.mem_bytes_iff.1 hmem
    exact Opcode.ne_byte_of_ofByte_none hnone o ho.symm
  · intro hnot
    cases h : Opcode.ofByte b with
    | none => rfl
    | some o => exact absurd (Opcode.mem_bytes_iff.2 ⟨o, Opcode.byte_of_ofByte h⟩) hnot

theorem exists_decode_of_mem_bytes {op : Byte} (h : op ∈ Opcode.bytes) (a b : Byte) :
    ∃ i, decode op a b = .instr i := by
  obtain ⟨o, rfl⟩ := Opcode.mem_bytes_iff.1 h
  exact ⟨_, decode_byte o a b⟩

theorem decode_of_not_mem_bytes {op : Byte} (h : op ∉ Opcode.bytes) (a b : Byte) :
    decode op a b = .unknownOpcode op := by
  simp only [decode, Opcode.ofByte_eq_none_iff.2 h]

/-! ### Counting bytes -/

/-- The numbers below 256 whose byte lies in a list without repetition are the values of that list's
bytes, each once. -/
theorem length_filter_range_mem {l : List Byte} (hl : l.Nodup) :
    ((List.range 256).filter (fun n => decide (BitVec.ofNat 8 n ∈ l))).length = l.length := by
  have hperm : ((List.range 256).filter (fun n => decide (BitVec.ofNat 8 n ∈ l))).Perm
      (l.map BitVec.toNat) := by
    refine (List.perm_ext_iff_of_nodup (List.nodup_range.filter _)
      (hl.map BitVec.toNat_injective)).2 fun n => ?_
    simp only [List.mem_filter, List.mem_range, decide_eq_true_eq, List.mem_map]
    constructor
    · rintro ⟨hn, hmem⟩
      exact ⟨_, hmem, by simpa using hn⟩
    · rintro ⟨b, hb, rfl⟩
      exact ⟨b.isLt, by simpa using hb⟩
  simpa using hperm.length_eq

theorem length_filter_range_not_mem {l : List Byte} (hl : l.Nodup) :
    ((List.range 256).filter (fun n => decide (BitVec.ofNat 8 n ∉ l))).length + l.length = 256 := by
  have := List.length_eq_length_filter_add (l := List.range 256)
    (fun n => decide (BitVec.ofNat 8 n ∈ l))
  rw [length_filter_range_mem hl, List.length_range] at this
  simpa [Nat.add_comm] using this.symm

end Sys2Proof

namespace Sys2Proof.Machine

/-- Settles O3: the statement's table is the model's opcode column, whose facts are above; the count
243 is 256 less its 13 bytes. -/
theorem opcodeBytesExactly : Obligations.OpcodeBytesExactly := by
  change Opcode.bytes.length = 13 ∧ Opcode.bytes.Nodup ∧
    ((List.range 256).filter (fun n => decide (BitVec.ofNat 8 n ∉ Opcode.bytes))).length = 243 ∧ _
  have hcount := length_filter_range_not_mem Opcode.bytes_nodup
  have hlen : Opcode.bytes.length = 13 := rfl
  exact ⟨hlen, Opcode.bytes_nodup, by omega, by decide, by decide,
    fun _ a b h => exists_decode_of_mem_bytes h a b,
    fun _ a b h => decode_of_not_mem_bytes h a b,
    fun _ hr h => step_of_unknown hr (Opcode.ofByte_eq_none_iff.2 h)⟩

end Sys2Proof.Machine
end

section
/-! The exit status (R174): which run state each value stands for, and why a run that never ends never
shows one: a state with a step after it is Running. -/

namespace Sys2Proof.Machine

/-! ### The exit status by run state -/

theorem State.exitStatus_eq_none_iff (s : State) : s.exitStatus = none ↔ s.rs = .running := by
  unfold State.exitStatus
  cases s.rs <;> simp

theorem State.exitStatus_eq_zero_iff (s : State) : s.exitStatus = some 0 ↔ s.rs = .halted := by
  unfold State.exitStatus
  cases s.rs <;> simp [FaultKind.code]

theorem State.exitStatus_eq_one_iff (s : State) :
    s.exitStatus = some 1 ↔ ∃ op addr, s.rs = .faulted .unknownOpcode op addr := by
  unfold State.exitStatus
  cases s.rs with
  | running => simp
  | halted => simp
  | faulted k op addr => cases k; simp [FaultKind.code]

/-! ### Runs that go on -/

/-- A run that can be made one step longer ends in a Running state: only such a state has a step (R80). -/
theorem running_of_run_extends {n : Nat} {s t u : State}
    (hn : Host.Core.run Sys2Proof.core n s = .next t)
    (hsucc : Host.Core.run Sys2Proof.core (n + 1) s = .next u) : t.rs = .running := by
  obtain ⟨_, hstep, _⟩ := step_of_run_succ ((run_add hn 1).symm.trans hsucc)
  exact (step_cases hstep).1

/-- A state that steps to itself is where every run from it ends. -/
theorem run_of_step_self {s : State} (h : step s = .next s) (n : Nat) :
    Host.Core.run Sys2Proof.core n s = .next s := by
  induction n with
  | zero => exact run_zero s
  | succ n ih => rw [run_succ_of_step h, ih]

/-- JMP R0 at address 0, with 0x00 in R0: a jump to itself. -/
def selfJump : State := State.reset.memWrite 0 0x54

/-- A run that never ends exists, so the last clause of the exit status is not vacuous. -/
theorem selfJump_run_never_ends (n : Nat) : ∃ t, Host.Core.run Sys2Proof.core n selfJump = .next t :=
  ⟨selfJump, run_of_step_self rfl n⟩

/-- Settles O47: the run states one by one; on an endless run each state has a step after it. -/
theorem exitStatusOfRunState : Obligations.ExitStatusOfRunState := by
  unfold Obligations.ExitStatusOfRunState
  refine fun s => ⟨s.exitStatus_eq_none_iff.symm, s.exitStatus_eq_zero_iff.symm,
    s.exitStatus_eq_one_iff.symm, fun hendless n t ht => ?_⟩
  obtain ⟨u, hu⟩ := hendless (n + 1)
  exact t.exitStatus_eq_none_iff.2 (running_of_run_extends ht hu)

/-- The statement's last clause at the run that never ends: none of its states has an exit status. -/
theorem selfJump_run_has_no_exitStatus (n : Nat) (t : State)
    (h : Host.Core.run Sys2Proof.core n selfJump = .next t) : t.exitStatus = none := by
  obtain ⟨_, _, _, hendless⟩ := exitStatusOfRunState selfJump
  exact hendless selfJump_run_never_ends n t h

end Sys2Proof.Machine
end

section
/-! The encoder against the decoder (R66, R67, R70): an answered instruction is its row's, built from the
two operand bytes; the round trips and the ignored bits are facts about `Opcode.build`. -/

namespace Sys2Proof

/-- The decoder answers an instruction only by a row of the table. -/
theorem row_of_decode_instr {op a b : Byte} {i : Instr} (h : decode op a b = .instr i) :
    ∃ o : Opcode, o.byte = op ∧ o.build a b = i := by
  rcases decode_cases op a b with ⟨o, ho, hd⟩ | ⟨_, hd⟩
  · exact ⟨o, ho, Decoded.instr.inj (hd.symm.trans h)⟩
  · rw [hd] at h; cases h

/-- Two decodings of one opcode byte agree if its row builds the same instruction from both. -/
theorem decode_congr {op a b a' b' : Byte}
    (h : ∀ o : Opcode, o.byte = op → o.build a b = o.build a' b') :
    decode op a b = decode op a' b' := by
  unfold decode
  cases ho : Opcode.ofByte op with
  | none => rfl
  | some o => simp only [h o (Opcode.byte_of_ofByte ho)]

/-! ### Operand bytes -/

/-- Reducing an operand byte to canonical form clears bits 7..3 (R70; D3). -/
theorem regByte_rix (b : Byte) : regByte (rix b) = b &&& 7 := by
  apply BitVec.eq_of_toNat_eq
  have hmask : b.toNat &&& 7 = b.toNat % 8 := Nat.and_two_pow_sub_one_eq_mod b.toNat 3
  simp [regByte, rix, hmask]
  omega

theorem rix_congr {a a' : Byte} (h : a.toNat % 8 = a'.toNat % 8) : rix a = rix a' := Fin.ext h

theorem Opcode.build_congr_left (o : Opcode) {a a' : Byte} (h : a.toNat % 8 = a'.toNat % 8)
    (b : Byte) : o.build a b = o.build a' b := by
  cases o <;> simp only [build, rix_congr h]

/-- Operand B selects a register for every row that uses it but LDI. -/
theorem Opcode.build_congr_right {o : Opcode} (ho : o ≠ .ldi) (a : Byte) {b b' : Byte}
    (h : b.toNat % 8 = b'.toNat % 8) : o.build a b = o.build a b' := by
  cases o with
  | ldi => exact absurd rfl ho
  | _ => simp only [build, rix_congr h]

/-- A row of one or two bytes ignores operand B (R61). -/
theorem Opcode.build_of_length_le_two {o : Opcode} (ho : o.length ≤ 2) (a b b' : Byte) :
    o.build a b = o.build a b' := by
  cases o with
  | ldi | add | mul | cmp => exact absurd ho (by decide)
  | _ => rfl

/-- A row of one byte ignores both operands (R61). -/
theorem Opcode.build_of_length_one {o : Opcode} (ho : o.length = 1) (a b a' b' : Byte) :
    o.build a b = o.build a' b' := by
  cases o with
  | ret | hlt => rfl
  | _ => exact absurd ho (by decide)

/-! ### Canonical bytes -/

theorem encode_getD_zero (i : Instr) (l : List Byte) :
    (encode i ++ l).getD 0 0 = i.opcode.byte := by
  cases i <;> rfl

/-- The operand bytes the encoder writes, or whatever follows a short instruction, build it again. -/
theorem build_of_encode (i : Instr) (x y : Byte) :
    i.opcode.build ((encode i ++ [x, y]).getD 1 0) ((encode i ++ [x, y]).getD 2 0) = i := by
  cases i <;> simp [Instr.opcode, Opcode.build, encode]

/-- The canonical bytes of a row's instruction, by the row's format (R61, R70). -/
theorem encode_build (o : Opcode) (a b : Byte) :
    encode (o.build a b) =
      o.byte :: [a &&& 7, if o.format = .opRI then b else b &&& 7].take (o.length - 1) := by
  cases o <;> simp [Opcode.build, encode, Opcode.byte, Opcode.format, Opcode.length, Format.length,
    regByte_rix]

end Sys2Proof

namespace Sys2Proof.Machine

/-- Settles O1: the first byte finds the row, and the row builds the instruction again. -/
theorem decodeOfEncode : Obligations.DecodeOfEncode := by
  unfold Obligations.DecodeOfEncode
  intro i x y
  simp only [encode_getD_zero, decode_byte, build_of_encode]

/-- Settles O2: the instruction is its row's, and re-encoding masks the register bytes. -/
theorem encodeOfDecode : Obligations.EncodeOfDecode := by
  unfold Obligations.EncodeOfDecode
  intro op a b i h
  obtain ⟨o, rfl, rfl⟩ := row_of_decode_instr h
  rw [encode_build, Opcode.build_opcode]
  cases o <;> rfl

/-- Settles O4: the same opcode byte finds the same row. -/
theorem decodingDependsOnOpcodeAlone : Obligations.DecodingDependsOnOpcodeAlone := by
  unfold Obligations.DecodingDependsOnOpcodeAlone
  intro op a b a' b' i h
  obtain ⟨o, rfl, rfl⟩ := row_of_decode_instr h
  exact ⟨o.build a' b', decode_byte o a' b', by simp only [Opcode.build_opcode],
    by simp only [Instr.length, Opcode.build_opcode]⟩

/-- Settles O5: each clause is what the rows of that opcode ignore. -/
theorem ignoredBitsSelectNothing : Obligations.IgnoredBitsSelectNothing := by
  unfold Obligations.IgnoredBitsSelectNothing
  refine ⟨fun op a a' b h => decode_congr fun o _ => o.build_congr_left h b,
    fun op a b b' hop h => decode_congr ?_, fun op a b b' hop => decode_congr ?_,
    fun a b a' b' => ⟨decode_congr ?_, decode_congr ?_⟩⟩
  · rintro o rfl
    exact Opcode.build_congr_right (by rintro rfl; exact hop rfl) a h
  · rintro o rfl
    refine Opcode.build_of_length_le_two ?_ a b b'
    revert hop
    cases o <;> decide
  · intro o ho
    obtain rfl : o = .ret := Opcode.byte_injective ho
    exact Opcode.build_of_length_one rfl a b a' b'
  · intro o ho
    obtain rfl : o = .hlt := Opcode.byte_injective ho
    exact Opcode.build_of_length_one rfl a b a' b'

/-- Settles O6: each word is its row's opcode byte, so the row builds the instruction. -/
theorem writtenOutWords : Obligations.WrittenOutWords := by
  unfold Obligations.WrittenOutWords
  exact ⟨decode_byte .ldi _ _, decode_byte .prn _ _, decode_byte .add _ _, decode_byte .mul _ _,
    decode_byte .cmp _ _, decode_byte .jmp _ _, decode_byte .jeq _ _, decode_byte .jne _ _,
    decode_byte .push _ _, decode_byte .pop _ _, decode_byte .call _ _, decode_byte .ret _ _,
    decode_byte .hlt _ _⟩

end Sys2Proof.Machine
end

section
/-! What executing an instruction leaves (R90 to R128), field by field: the registers it may write, the
byte it may store, the flags, the run state and `OUT`. -/

namespace Sys2Proof

/-- The registers an instruction may write: operand A's of LDI, ADD, MUL, POP, and `SP` of the four
stack instructions (R21, R22, R35). -/
def Instr.writes : Instr → List RegIdx
  | .ldi a _ | .add a _ | .mul a _ => [a]
  | .pop a => [a, 7]
  | .push _ | .call _ | .ret => [7]
  | .prn _ | .cmp _ _ | .jmp _ | .jeq _ | .jne _ | .hlt => []

end Sys2Proof

namespace Sys2Proof.Machine

/-- The state an instruction leaves; that it always leaves one is `exec_eq`. -/
def execNext (i : Instr) (s : State) : State :=
  match exec i s with
  | .next t => t
  | .fault _ => s
  | .refused _ => s

/-- Every instruction completes in every state (R85). -/
theorem exec_eq (i : Instr) (s : State) : exec i s = .next (execNext i s) := by
  cases i <;> rfl

theorem eq_execNext {i : Instr} {s t : State} (h : exec i s = .next t) : t = execNext i s :=
  (Host.Outcome.next.inj ((exec_eq i s).symm.trans h)).symm

/-! ### The next state, row by row -/

@[simp] theorem execNext_ldi (a : RegIdx) (v : Byte) (s : State) :
    execNext (.ldi a v) s = (s.setReg a v).advancePc 3 := rfl
@[simp] theorem execNext_prn (a : RegIdx) (s : State) :
    execNext (.prn a) s = (s.emit (s.getReg a)).advancePc 2 := rfl
@[simp] theorem execNext_add (a b : RegIdx) (s : State) : execNext (.add a b) s =
    (s.setReg a (aluAdd (s.getReg a) (s.getReg b))).advancePc 3 := rfl
@[simp] theorem execNext_mul (a b : RegIdx) (s : State) : execNext (.mul a b) s =
    (s.setReg a (aluMul (s.getReg a) (s.getReg b))).advancePc 3 := rfl
@[simp] theorem execNext_cmp (a b : RegIdx) (s : State) : execNext (.cmp a b) s =
    (s.setFlags (compareFlags (s.getReg a) (s.getReg b))).advancePc 3 := rfl
@[simp] theorem execNext_jmp (a : RegIdx) (s : State) :
    execNext (.jmp a) s = s.setPc (s.getReg a) := rfl
@[simp] theorem execNext_jeq (a : RegIdx) (s : State) : execNext (.jeq a) s =
    s.setPc (if s.fl.e = true then s.getReg a else s.pc + 2) := s.jump_eq .jeq a
@[simp] theorem execNext_jne (a : RegIdx) (s : State) : execNext (.jne a) s =
    s.setPc (if s.fl.e = true then s.pc + 2 else s.getReg a) := by
  show s.jump .jne a = _
  cases h : s.fl.e <;> simp [State.jump_eq, branchTaken, h]
@[simp] theorem execNext_push (a : RegIdx) (s : State) : execNext (.push a) s =
    (s.decSP.storeTop (s.decSP.getReg a)).advancePc 2 := rfl
@[simp] theorem execNext_pop (a : RegIdx) (s : State) : execNext (.pop a) s =
    (s.setReg a s.stackTop).incSP.advancePc 2 := rfl
@[simp] theorem execNext_call (a : RegIdx) (s : State) : execNext (.call a) s =
    (s.decSP.storeTop s.returnAddress).setPc (s.decSP.getReg a) := rfl
@[simp] theorem execNext_ret (s : State) : execNext .ret s = (s.setPc s.stackTop).incSP := rfl
@[simp] theorem execNext_hlt (s : State) : execNext .hlt s = s.halt := rfl

/-! ### Flags, run state, output -/

/-- No row but CMP's writes the flags (R27). -/
theorem execNext_fl {i : Instr} (hi : i.opcode ≠ .cmp) (s : State) : (execNext i s).fl = s.fl := by
  cases i with
  | cmp => exact absurd rfl hi
  | _ => simp

/-- A comparison leaves exactly one flag at 1 (R98). -/
theorem compareFlags_one_set (va vb : Byte) :
    compareFlags va vb = ⟨true, false, false⟩ ∨ compareFlags va vb = ⟨false, true, false⟩ ∨
      compareFlags va vb = ⟨false, false, true⟩ := by
  rcases Nat.lt_trichotomy va.toNat vb.toNat with hlt | heq | hgt
  · exact .inr (.inl (compareFlags_lt hlt))
  · exact .inl (compareFlags_eq (BitVec.eq_of_toNat_eq heq))
  · exact .inr (.inr (compareFlags_gt hgt))

/-- No row but HLT's writes the run state (R86). -/
theorem execNext_rs {i : Instr} (hi : i.opcode ≠ .hlt) (s : State) : (execNext i s).rs = s.rs := by
  cases i with
  | hlt => exact absurd rfl hi
  | _ => simp

/-- No row but PRN's writes the output (R173). -/
theorem execNext_out {i : Instr} (hi : i.opcode ≠ .prn) (s : State) : (execNext i s).out = s.out := by
  cases i with
  | prn => exact absurd rfl hi
  | _ => simp

/-! ### Registers -/

/-- An instruction leaves every register alone that it does not write. -/
theorem execNext_sameRegsExcept (i : Instr) (s : State) :
    SameRegsExcept i.writes s (execNext i s) := by
  intro r hr
  cases i with
  | ldi a v | add a b | mul a b => exact State.getReg_setReg_ne (List.ne_of_not_mem_cons hr)
  | pop a =>
    obtain ⟨hra, hr7⟩ : r ≠ a ∧ r ≠ 7 := by simpa [Instr.writes] using hr
    exact (State.getReg_setReg_ne hr7).trans (State.getReg_setReg_ne hra)
  | push a | call a | ret => exact State.getReg_setReg_ne (List.ne_of_not_mem_cons hr)
  | prn a | cmp a b | jmp a | jeq a | jne a | hlt => simp

/-- The operand PUSH stores and CALL jumps to, read after the decrement (D12). -/
theorem State.getReg_decSP_eq_ite (s : State) (a : RegIdx) :
    s.decSP.getReg a = if a = 7 then s.pushAddr else s.getReg a := by
  rw [State.getReg_decSP, State.pushAddr_eq, Config.spIndex]

theorem State.pushAddr_toNat (s : State) : s.pushAddr.toNat = (s.sp.toNat + 255) % 256 := by
  rw [State.pushAddr_eq, BitVec.toNat_sub, Nat.add_comm]
  rfl

/-! ### Memory -/

/-- The byte an instruction stores, if it stores one: PUSH's operand, CALL's return address (R44). -/
def State.stored (s : State) : Instr → Option Byte
  | .push a => some (s.decSP.getReg a)
  | .call _ => some s.returnAddress
  | _ => none

/-- Every byte of memory after an instruction: only the cell at `pushAddr` may differ (R44). -/
theorem memRead_execNext (i : Instr) (s : State) (x : Nat) :
    (execNext i s).memRead x =
      if x % 256 = s.pushAddr.toNat then (s.stored i).getD (s.memRead x) else s.memRead x := by
  cases i with
  | push a => exact State.memRead_storeTop s.decSP x (s.decSP.getReg a)
  | call a => exact State.memRead_storeTop s.decSP x s.returnAddress
  | _ => simp [State.stored]

theorem execNext_sameMemoryExcept (i : Instr) (s : State) :
    SameMemoryExcept s.pushAddr s (execNext i s) := fun x hx => by
  rw [memRead_execNext, if_neg hx]

theorem execNext_sameMemory {i : Instr} {s : State} (h : s.stored i = none) :
    SameMemory s (execNext i s) := fun x => by
  rw [memRead_execNext, h, Option.getD_none, ite_self]

/-- A storing instruction leaves its byte at `pushAddr`. -/
theorem memRead_execNext_pushAddr {i : Instr} {s : State} {v : Byte} (h : s.stored i = some v) :
    (execNext i s).memRead s.pushAddr.toNat = v := by
  rw [memRead_execNext, if_pos (Nat.mod_eq_of_lt s.pushAddr.isLt), h]
  rfl

/-- Every instruction keeps the canonical form of memory. -/
theorem execNext_mem_wf (i : Instr) {s : State} (h : s.mem.wf = true) :
    (execNext i s).mem.wf = true := by
  cases i with
  | push a => exact State.storeTop_wf (s := s.decSP) _ h
  | call a => exact State.storeTop_wf (s := s.decSP) _ h
  | _ => simpa using h

end Sys2Proof.Machine
end

section
/-! The statements about single instructions and small groups of them: each is the row of the next state
(`execNext`) with its registers, memory and flags read off. -/

namespace Sys2Proof.Machine

/-! ### Load, print, arithmetic, comparison -/

/-- Settles O12: the register just written, and LDI's row for the rest. -/
theorem ldiResult : Obligations.LdiResult := by
  unfold Obligations.LdiResult
  exact ⟨decode_byte .ldi, fun a v s => ⟨_, exec_eq _ s, s.getReg_setReg_self a v,
    execNext_sameRegsExcept (.ldi a v) s, execNext_sameMemory rfl,
    rfl, rfl, rfl, by simp⟩⟩

theorem renderOut_concat (l : List Byte) (v : Byte) :
    renderOut (l ++ [v]) = renderOut l ++ decimal v ++ ['\n'] := by
  simp [renderOut_append, renderOut]

/-- Settles O13: PRN appends one value, and the rendering goes value by value. -/
theorem prnResult : Obligations.PrnResult := by
  unfold Obligations.PrnResult
  exact ⟨decode_byte .prn, fun a s => ⟨_, exec_eq _ s, rfl, renderOut_concat s.out (s.getReg a),
    execNext_sameRegsExcept (.prn a) s, execNext_sameMemory rfl,
    rfl, rfl, by simp⟩⟩

theorem getReg_execNext_add (a b : RegIdx) (s : State) :
    (execNext (.add a b) s).getReg a = aluAdd (s.getReg a) (s.getReg b) := by simp

theorem getReg_execNext_mul (a b : RegIdx) (s : State) :
    (execNext (.mul a b) s).getReg a = aluMul (s.getReg a) (s.getReg b) := by simp

/-- Settles O14: the register written holds the ALU's sum. -/
theorem addResult : Obligations.AddResult := by
  unfold Obligations.AddResult
  exact ⟨decode_byte .add, fun a b s => ⟨_, exec_eq _ s,
    by rw [getReg_execNext_add, aluAdd_toNat], execNext_sameRegsExcept (.add a b) s,
    execNext_sameMemory rfl, rfl, rfl, rfl, by simp⟩⟩

/-- Settles O15: the register written holds the ALU's product. -/
theorem mulResult : Obligations.MulResult := by
  unfold Obligations.MulResult
  exact ⟨decode_byte .mul, fun a b s => ⟨_, exec_eq _ s,
    by rw [getReg_execNext_mul, aluMul_toNat], execNext_sameRegsExcept (.mul a b) s,
    execNext_sameMemory rfl, rfl, rfl, rfl, by simp⟩⟩

/-- Each flag of a comparison is its own relation of the unsigned values (R98, R10). -/
theorem compareFlags_iff (va vb : Byte) :
    ((compareFlags va vb).e = true ↔ va.toNat = vb.toNat) ∧
    ((compareFlags va vb).l = true ↔ va.toNat < vb.toNat) ∧
    ((compareFlags va vb).g = true ↔ va.toNat > vb.toNat) := by
  rcases Nat.lt_trichotomy va.toNat vb.toNat with hlt | heq | hgt
  · simp [compareFlags_lt hlt]; omega
  · simp [compareFlags_eq (BitVec.eq_of_toNat_eq heq)]; omega
  · simp [compareFlags_gt hgt]; omega

/-- Settles O16: CMP's flags are the comparison's; no other row writes them. -/
theorem cmpResult : Obligations.CmpResult := by
  unfold Obligations.CmpResult
  refine ⟨decode_byte .cmp, fun a b s => ?_, fun i s t hi h => ?_, State.raiseUnknownOpcode_fl⟩
  · obtain ⟨he, hl, hg⟩ := compareFlags_iff (s.getReg a) (s.getReg b)
    exact ⟨_, exec_eq _ s, he, hl, hg, execNext_sameRegsExcept (.cmp a b) s,
      execNext_sameMemory rfl, rfl, rfl, by simp⟩
  · rw [eq_execNext h, execNext_fl hi]

/-- Settles O25: what PRN emits is the register LDI wrote. -/
theorem ldiPrnHltEmits : Obligations.LdiPrnHltEmits := by
  unfold Obligations.LdiPrnHltEmits
  intro r v s
  have hout : (execNext .hlt (execNext (.prn r) (execNext (.ldi r v) s))).out = s.out ++ [v] := by
    simp
  exact ⟨_, _, _, exec_eq _ s, exec_eq _ _, exec_eq _ _, hout,
    by rw [hout, renderOut_concat], rfl⟩

theorem aluAdd_comm (va vb : Byte) : aluAdd va vb = aluAdd vb va := by
  rw [aluAdd, aluAdd, Nat.add_comm]

theorem aluMul_comm (va vb : Byte) : aluMul va vb = aluMul vb va := by
  rw [aluMul, aluMul, Nat.mul_comm]

theorem aluAdd_0xFF (va : Byte) : aluAdd va 0xFF = va - 1 := by
  apply BitVec.eq_of_toNat_eq
  rw [aluAdd_toNat, BitVec.toNat_sub, Nat.add_comm]
  rfl

/-- Settles O26: the ALU's sum and product commute, and 0xFF is -1. -/
theorem addMulCommuteInValue : Obligations.AddMulCommuteInValue := by
  unfold Obligations.AddMulCommuteInValue
  refine ⟨fun a b s t u ht hu => ?_, fun a b s t u ht hu => ?_, fun a b s t hb ht => ?_⟩
  · rw [eq_execNext ht, eq_execNext hu, getReg_execNext_add, getReg_execNext_add, aluAdd_comm]
  · rw [eq_execNext ht, eq_execNext hu, getReg_execNext_mul, getReg_execNext_mul, aluMul_comm]
  · rw [eq_execNext ht, getReg_execNext_add, hb, aluAdd_0xFF]

theorem compareFlags_swap (va vb : Byte) :
    compareFlags vb va =
      ⟨(compareFlags va vb).e, (compareFlags va vb).g, (compareFlags va vb).l⟩ := by
  rcases Nat.lt_trichotomy va.toNat vb.toNat with hlt | heq | hgt
  · rw [compareFlags_lt hlt, compareFlags_gt hlt]
  · have hv := BitVec.eq_of_toNat_eq heq
    rw [compareFlags_eq hv, compareFlags_eq hv.symm]
  · rw [compareFlags_gt hgt, compareFlags_lt hgt]

/-- Settles O27: the three outcomes of a comparison, exchanged, reflexive, and one at a time. -/
theorem cmpOperandOrder : Obligations.CmpOperandOrder := by
  unfold Obligations.CmpOperandOrder
  intro a b s t u ht hu
  rw [eq_execNext ht, eq_execNext hu]
  exact ⟨compareFlags_swap _ _, fun hab => compareFlags_eq (congrArg s.getReg hab),
    compareFlags_one_set _ _⟩

/-! ### Jumps -/

/-- A byte that is no opcode finds no row. -/
theorem isOpcode_eq_false_iff {b : Byte} : isOpcode b = false ↔ Opcode.ofByte b = none := by
  simp [isOpcode]

/-- Settles O17: the target is fetched from unchanged memory; the self-jump writes the pc it finds. -/
theorem jmpResult : Obligations.JmpResult := by
  unfold Obligations.JmpResult
  refine ⟨decode_byte .jmp, fun a s => ⟨_, exec_eq _ s, rfl, execNext_sameRegsExcept (.jmp a) s,
    execNext_sameMemory rfl, rfl, rfl, rfl, fun hr hop => ?_⟩,
    fun a s hself => ?_⟩
  · exact step_of_unknown (s := s.setPc (s.getReg a)) hr (isOpcode_eq_false_iff.1 hop)
  · rw [exec_eq, execNext_jmp, hself]
    rfl

/-- A comparison of registers with equal values sets Equal. -/
theorem execNext_cmp_e {a b : RegIdx} {s : State} (h : s.getReg a = s.getReg b) :
    (execNext (.cmp a b) s).fl.e = true := by
  simp [compareFlags_eq h]

/-- Settles O18: the two branches, and Equal after the comparison. -/
theorem jeqResult : Obligations.JeqResult := by
  unfold Obligations.JeqResult
  refine ⟨decode_byte .jeq, fun a s => ⟨_, exec_eq _ s, fun he => by simp [he],
    fun he => by simp [he], execNext_sameRegsExcept (.jeq a) s,
    execNext_sameMemory rfl, by simp, by simp, by simp⟩, fun a b c s h => ?_⟩
  refine ⟨_, _, exec_eq _ s, exec_eq _ _, ?_⟩
  rw [execNext_jeq, if_pos (execNext_cmp_e h)]
  rfl

/-- Settles O19: the two branches, and Equal after the comparison. -/
theorem jneResult : Obligations.JneResult := by
  unfold Obligations.JneResult
  refine ⟨decode_byte .jne, fun a s => ⟨_, exec_eq _ s, fun he => by simp [he],
    fun he => by simp [he], execNext_sameRegsExcept (.jne a) s,
    execNext_sameMemory rfl, by simp, by simp, by simp⟩, fun a b c s h => ?_⟩
  refine ⟨_, _, exec_eq _ s, exec_eq _ _, ?_⟩
  rw [execNext_jne, if_pos (execNext_cmp_e h), State.setPc_pc, BitVec.toNat_add]
  rfl

/-- Settles O28: both jumps decide by Equal, with the branches exchanged. -/
theorem jneComplementsJeq : Obligations.JneComplementsJeq := by
  unfold Obligations.JneComplementsJeq
  intro a s t u ht hu
  rw [eq_execNext ht, eq_execNext hu]
  cases he : s.fl.e with
  | true => exact .inl ⟨rfl, by simp [he], by simp [he]⟩
  | false => exact .inr ⟨rfl, by simp [he], by simp [he]⟩

/-! ### Stack, subroutines, halt -/

/-- Settles O20: the byte stored is the operand read after the decrement. -/
theorem pushResult : Obligations.PushResult := by
  unfold Obligations.PushResult
  refine ⟨decode_byte .push, fun a s => ⟨_, exec_eq _ s, s.pushAddr_toNat, rfl,
    execNext_sameRegsExcept (.push a) s, ?_, execNext_sameMemoryExcept (.push a) s,
    rfl, rfl, rfl, by simp⟩⟩
  rw [← State.getReg_decSP_eq_ite]
  exact memRead_execNext_pushAddr rfl

/-- Settles O21: the load comes before the increment, which for register 7 applies to the byte loaded. -/
theorem popResult : Obligations.PopResult := by
  unfold Obligations.PopResult
  refine ⟨decode_byte .pop, fun a s => ⟨_, exec_eq _ s, fun ha => ⟨?_, ?_⟩, fun ha => ?_,
    execNext_sameRegsExcept (.pop a) s, execNext_sameMemory rfl,
    rfl, rfl, rfl, by simp⟩⟩
  · exact (State.getReg_setReg_ne ha).trans (State.getReg_setReg_self s a s.stackTop)
  · simp [State.sp_incSP, State.sp_setReg, Config.spIndex, ha]
  · simp [State.sp_incSP, State.sp_setReg, Config.spIndex, ha, State.stackTop]

/-- Settles O22: the byte stored is the return address, the target the operand after the decrement. -/
theorem callResult : Obligations.CallResult := by
  unfold Obligations.CallResult
  refine ⟨decode_byte .call, fun a s => ⟨_, exec_eq _ s, s.pushAddr_toNat, rfl,
    execNext_sameRegsExcept (.call a) s, ?_, execNext_sameMemoryExcept (.call a) s,
    s.getReg_decSP_eq_ite a, rfl, rfl, rfl⟩⟩
  rw [memRead_execNext_pushAddr rfl, State.returnAddress, BitVec.toNat_add]
  rfl

/-- Settles O23: RET's row, with `SP` incremented. -/
theorem retResult : Obligations.RetResult := by
  unfold Obligations.RetResult
  exact ⟨decode_byte .ret, fun s => ⟨_, exec_eq _ s, rfl, by simp [State.sp_incSP],
    execNext_sameRegsExcept .ret s, execNext_sameMemory rfl, rfl, rfl, rfl⟩⟩

/-- Settles O24: HLT's row; a halted machine has no step. -/
theorem hltResult : Obligations.HltResult := by
  unfold Obligations.HltResult
  exact ⟨decode_byte .hlt, fun s => ⟨_, exec_eq _ s, rfl, rfl, execNext_sameRegsExcept .hlt s,
    execNext_sameMemory rfl, rfl, rfl, rfl, rfl⟩⟩

end Sys2Proof.Machine
end

section
/-! The rules of every step: which instruction it runs (R80 to R82), and what of the state that lets it
change (R26, R27, R44, R86). `step_row_cases` is the one inversion the rules are read from. -/

namespace Sys2Proof.Machine

/-- The instruction a row's opcode byte at `pc` makes of the two bytes that follow (R81, R82). -/
def State.fetched (s : State) (o : Opcode) : Instr := o.build s.fetchA s.fetchB

@[simp] theorem State.fetched_opcode (s : State) (o : Opcode) : (s.fetched o).opcode = o :=
  Opcode.build_opcode o s.fetchA s.fetchB

/-- Everything a step can do: from a Running machine, the fetched row's instruction or the raise. -/
theorem step_row_cases {s t : State} (h : step s = .next t) :
    s.rs = .running ∧
    ((∃ o : Opcode, s.memRead s.pc.toNat = o.byte ∧ t = execNext (s.fetched o) s) ∨
     (Opcode.ofByte (s.memRead s.pc.toNat) = none ∧
        t = s.raiseUnknownOpcode (s.memRead s.pc.toNat))) := by
  obtain ⟨hr, ⟨o, ho, he⟩ | hraise⟩ := step_cases_row h
  · exact ⟨hr, .inl ⟨o, ho, eq_execNext he⟩⟩
  · exact ⟨hr, .inr hraise⟩

theorem State.fetched_opcode_ne (s : State) {o o' : Opcode} (h : o.byte ≠ o'.byte) :
    (s.fetched o).opcode ≠ o' := by
  rw [State.fetched_opcode]
  rintro rfl
  exact h rfl

theorem step_of_fetchDecode {s : State} {i : Instr} (hr : s.rs = .running)
    (hd : s.fetchDecode = .instr i) : step s = .next (execNext i s) := by
  rw [← exec_eq]
  simp only [step, (State.noStep_eq_none_iff s).2 hr, hd]

theorem step_of_fetchOp {s : State} {o : Opcode} (hr : s.rs = .running)
    (ho : s.memRead s.pc.toNat = o.byte) : step s = .next (execNext (s.fetched o) s) :=
  (step_of_row hr ho).trans (exec_eq _ s)

theorem isOpcode_byte (o : Opcode) : isOpcode o.byte = true := by
  rw [isOpcode, Opcode.ofByte_byte]
  rfl

/-! ### Dispatch -/

/-- Settles O7: the step is `exec` of what the fetched bytes decode to. -/
theorem stepRunsDecoded : Obligations.StepRunsDecoded := by
  unfold Obligations.StepRunsDecoded
  intro s i hr hd
  rw [← State.fetchA_eq, ← State.fetchB_eq] at hd
  rw [exec_eq]
  exact step_of_fetchDecode hr hd

/-- Settles O8: each clause is a row of the table at the fetched operand bytes. -/
theorem dispatchByOpcode : Obligations.DispatchByOpcode := by
  unfold Obligations.DispatchByOpcode
  intro s hr
  rw [← State.fetchA_eq, ← State.fetchB_eq]
  have row (o : Opcode) (h : s.memRead s.pc.toNat = o.byte) :
      step s = exec (o.build s.fetchA s.fetchB) s := step_of_row hr h
  exact ⟨row .ldi, row .prn, row .add, row .mul, row .cmp, row .jmp, row .jeq, row .jne, row .push,
    row .pop, row .call, row .ret, row .hlt,
    fun h => step_of_unknown hr (Opcode.ofByte_eq_none_iff.2 h)⟩

/-- Settles O9: the two stops are `noStep`'s answers. -/
theorem noStepUnlessRunning : Obligations.NoStepUnlessRunning := by
  unfold Obligations.NoStepUnlessRunning
  exact fun s => ⟨fun h => by simp only [step, State.noStep, h],
    fun k op addr h => by simp only [step, State.noStep, h], fun t h => (step_cases h).1⟩

/-- A Running machine always has a next state (R85). -/
theorem exists_step_of_running {s : State} (hr : s.rs = .running) : ∃ t, step s = .next t := by
  cases ho : Opcode.ofByte (s.memRead s.pc.toNat) with
  | some o => exact ⟨_, step_of_fetchOp hr (Opcode.byte_of_ofByte ho).symm⟩
  | none => exact ⟨_, step_of_unknown hr ho⟩

/-- Settles O33: PRN's row appends its register's value, every other and the raise leave `OUT`. -/
theorem outputOnlyByPrn : Obligations.OutputOnlyByPrn := by
  unfold Obligations.OutputOnlyByPrn
  intro s t h
  rw [← State.fetchA_eq]
  obtain ⟨_, ⟨o, ho, rfl⟩ | ⟨hnone, rfl⟩⟩ := step_row_cases h
  · rw [ho]
    refine ⟨fun hprn => ?_, fun hne => execNext_out (s.fetched_opcode_ne hne) s⟩
    obtain rfl : o = .prn := Opcode.byte_injective hprn
    rfl
  · exact ⟨fun hprn => absurd hprn (Opcode.ne_byte_of_ofByte_none hnone .prn), fun _ => rfl⟩

/-- Settles O10: by what a step does to `OUT` (O33). -/
theorem runningStepIsTotal : Obligations.RunningStepIsTotal := by
  unfold Obligations.RunningStepIsTotal
  intro s hr
  obtain ⟨t, ht⟩ := exists_step_of_running hr
  obtain ⟨hprn, hother⟩ := outputOnlyByPrn s t ht
  by_cases h : s.memRead s.pc.toNat = 0x47
  · exact ⟨t, ht, .inr ⟨_, hprn h⟩⟩
  · exact ⟨t, ht, .inl (hother h)⟩

/-- Settles O11: the raise records the fault and keeps every other field. -/
theorem unknownOpcodeTaken : Obligations.UnknownOpcodeTaken := by
  unfold Obligations.UnknownOpcodeTaken
  intro s hr hop
  exact ⟨_, step_of_unknown hr (Opcode.ofByte_eq_none_iff.2 hop), rfl, rfl, fun _ _ => rfl,
    fun _ => rfl, rfl, rfl, rfl, rfl, rfl⟩

/-! ### Flags and run state -/

/-- Settles O29: only CMP's row writes the flags, and it leaves one at 1. -/
theorem flagsWrittenOnlyByCmp : Obligations.FlagsWrittenOnlyByCmp := by
  unfold Obligations.FlagsWrittenOnlyByCmp
  intro s t h
  obtain ⟨_, ⟨o, ho, rfl⟩ | ⟨hnone, rfl⟩⟩ := step_row_cases h
  · rw [ho]
    refine ⟨fun hne => execNext_fl (s.fetched_opcode_ne hne) s, fun hcmp => ?_⟩
    obtain rfl : o = .cmp := Opcode.byte_injective hcmp
    exact compareFlags_one_set _ _
  · exact ⟨fun _ => rfl, fun hcmp => absurd hcmp (Opcode.ne_byte_of_ofByte_none hnone .cmp)⟩

/-- CMP reads no flag: it overwrites whatever they were. -/
theorem execNext_cmp_setFlags (a b : RegIdx) (s : State) (f : Flags) :
    execNext (.cmp a b) (s.setFlags f) = execNext (.cmp a b) s := rfl

/-- Every other row carries the flags through, and only JEQ and JNE look at them, at Equal (R109). -/
theorem execNext_setFlags {i : Instr} {s : State} {f : Flags} (hcmp : i.opcode ≠ .cmp)
    (he : i.opcode = .jeq ∨ i.opcode = .jne → f.e = s.fl.e) :
    execNext i (s.setFlags f) = (execNext i s).setFlags f := by
  cases i with
  | cmp => exact absurd rfl hcmp
  | jeq a => rw [execNext_jeq, execNext_jeq, State.setFlags_fl, he (.inl rfl)]; rfl
  | jne a => rw [execNext_jne, execNext_jne, State.setFlags_fl, he (.inr rfl)]; rfl
  | _ => rfl

/-- Settles O30: fetch does not read the flags, CMP overwrites them, the rest carry them through. -/
theorem flagsReadOnlyByConditionalJumps : Obligations.FlagsReadOnlyByConditionalJumps := by
  unfold Obligations.FlagsReadOnlyByConditionalJumps
  intro s t f h he
  obtain ⟨hr, ⟨o, ho, rfl⟩ | ⟨hnone, rfl⟩⟩ := step_row_cases h
  · have hstep : step (s.setFlags f) = .next (execNext (s.fetched o) (s.setFlags f)) :=
      step_of_fetchOp (s := s.setFlags f) hr ho
    rw [ho] at he ⊢
    by_cases hcmp : o = .cmp
    · subst hcmp
      have hset : execNext (s.fetched .cmp) (s.setFlags f) = execNext (s.fetched .cmp) s :=
        execNext_cmp_setFlags _ _ s f
      rw [hset] at hstep
      exact ⟨_, hstep, rfl, fun _ _ => rfl, fun _ => rfl, rfl, rfl, fun _ => rfl,
        fun hne => absurd rfl hne⟩
    · have hset : execNext (s.fetched o) (s.setFlags f) = (execNext (s.fetched o) s).setFlags f := by
        refine execNext_setFlags (by rwa [State.fetched_opcode]) fun hj => he ?_
        rw [State.fetched_opcode] at hj
        exact hj.imp (congrArg Opcode.byte) (congrArg Opcode.byte)
      rw [hset] at hstep
      exact ⟨_, hstep, rfl, fun _ _ => rfl, fun _ => rfl, rfl, rfl,
        fun hcmp' => absurd (Opcode.byte_injective hcmp') hcmp, fun _ => rfl⟩
  · exact ⟨_, step_of_unknown (s := s.setFlags f) hr hnone, rfl, fun _ _ => rfl, fun _ => rfl, rfl,
      rfl, fun hcmp => absurd hcmp (Opcode.ne_byte_of_ofByte_none hnone .cmp), fun _ => rfl⟩

/-- Settles O31: HLT's row halts, the raise faults, every other row keeps Running. -/
theorem runStateChangedOnlyByHltOrFault : Obligations.RunStateChangedOnlyByHltOrFault := by
  unfold Obligations.RunStateChangedOnlyByHltOrFault
  intro s t h
  obtain ⟨hr, ⟨o, ho, rfl⟩ | ⟨hnone, rfl⟩⟩ := step_row_cases h
  · rw [ho, isOpcode_byte]
    refine ⟨fun hhlt => ?_, nofun,
      fun hne _ => (execNext_rs (s.fetched_opcode_ne hne) s).trans hr⟩
    obtain rfl : o = .hlt := Opcode.byte_injective hhlt
    rfl
  · rw [isOpcode_eq_false_iff.2 hnone]
    exact ⟨fun hhlt => absurd hhlt (Opcode.ne_byte_of_ofByte_none hnone .hlt), fun _ => rfl, nofun⟩

/-! ### Memory, registers, pc -/

/-- Settles O32: a byte that changed is one the instruction stored, at `pushAddr`. -/
theorem memoryWrittenOnlyByPushAndCall : Obligations.MemoryWrittenOnlyByPushAndCall := by
  unfold Obligations.MemoryWrittenOnlyByPushAndCall
  intro s t addr h hne
  obtain ⟨_, ⟨o, ho, rfl⟩ | ⟨_, rfl⟩⟩ := step_row_cases h
  · rw [ho]
    refine ⟨?_, by_contra fun haddr => hne (execNext_sameMemoryExcept _ s addr haddr),
      s.pushAddr_toNat⟩
    cases o with
    | push => exact .inl rfl
    | call => exact .inr rfl
    | _ => exact absurd (execNext_sameMemory rfl addr) hne
  · exact absurd rfl hne

/-- Settles O34: a register that changed is one the instruction writes. -/
theorem registersWrittenByStep : Obligations.RegistersWrittenByStep := by
  unfold Obligations.RegistersWrittenByStep
  intro s t r h hne
  rw [← State.fetchA_eq]
  obtain ⟨_, ⟨o, ho, rfl⟩ | ⟨_, rfl⟩⟩ := step_row_cases h
  · have hr : r ∈ (s.fetched o).writes :=
      by_contra fun hr => hne (execNext_sameRegsExcept _ s r hr)
    rw [ho]
    revert hr
    cases o <;> simp [State.fetched, Opcode.build, Instr.writes, Opcode.byte]
  · exact absurd rfl hne

/-- Settles O35: the pc of each row's next state; the raise leaves it. -/
theorem pcAfterStep : Obligations.PcAfterStep := by
  unfold Obligations.PcAfterStep
  intro s t h
  rw [← State.fetchA_eq]
  obtain ⟨_, ⟨o, ho, rfl⟩ | ⟨hnone, rfl⟩⟩ := step_row_cases h
  · simp only [ho, isOpcode_byte]
    cases o with
    | jeq | jne => cases he : s.fl.e <;> simp [Opcode.byte, State.fetched, Opcode.build, he]
    | call => simp [Opcode.byte, State.fetched, Opcode.build, State.getReg_decSP_eq_ite]
    | ret => simp [Opcode.byte, State.fetched, Opcode.build, State.stackTop]
    | _ => simp [Opcode.byte, State.fetched, Opcode.build]
  · have hne (o : Opcode) : s.memRead s.pc.toNat ≠ o.byte := Opcode.ne_byte_of_ofByte_none hnone o
    have hmem {l : List Byte} (hl : l ⊆ Opcode.bytes) : s.memRead s.pc.toNat ∉ l :=
      fun h => Opcode.ofByte_eq_none_iff.1 hnone (hl h)
    exact ⟨fun h => absurd h (hmem (by decide)), fun h => absurd h (hmem (by decide)),
      fun h => absurd h (hne .jmp),
      fun h => absurd h (hne .jeq), fun h => absurd h (hne .jeq), fun h => absurd h (hne .jne),
      fun h => absurd h (hne .jne), fun h => absurd h (hne .call), fun h => absurd h (hne .ret),
      fun h => absurd h (hne .hlt), fun _ => rfl⟩

end Sys2Proof.Machine
end

section
/-! The invariant of the machine (R28, R131), and memory: canonical lists (log 20), what a store changes
(R42), and who reads the stored byte next (R53, R55, R115, R124). -/

namespace Sys2Proof.Machine

/-! ### The invariant -/

theorem execNext_fl_legal (i : Instr) {s : State} (h : s.fl.legal = true) :
    (execNext i s).fl.legal = true := by
  by_cases hcmp : i.opcode = .cmp
  · cases i with
    | cmp a b => exact compareFlags_legal _ _
    | _ => cases hcmp
  · rwa [execNext_fl hcmp]

/-- Executing an instruction never records a fault. -/
theorem execNext_rs_ne_faulted (i : Instr) {s : State} (hr : s.rs = .running) (k : FaultKind)
    (op addr : Byte) : (execNext i s).rs ≠ .faulted k op addr := by
  cases i <;> simp [hr]

/-- The raise records the byte at `pc`, which is no opcode (R131). -/
theorem raiseUnknownOpcode_faultPrecise {s : State}
    (hnone : Opcode.ofByte (s.memRead s.pc.toNat) = none) :
    (s.raiseUnknownOpcode (s.memRead s.pc.toNat)).FaultPrecise := by
  intro k op addr h
  obtain ⟨-, rfl, rfl⟩ := RunState.faulted.inj h
  exact ⟨rfl, rfl, isOpcode_eq_false_iff.2 hnone⟩

/-- Settles O36: an instruction keeps memory canonical and the flags legal and records no fault; the
raise keeps both and records a precise one. -/
theorem stepKeepsInvariant : Obligations.StepKeepsInvariant := by
  unfold Obligations.StepKeepsInvariant
  rintro s t ⟨hwf, hlegal, -⟩ h
  obtain ⟨hr, ⟨o, -, rfl⟩ | ⟨hnone, rfl⟩⟩ := step_row_cases h
  · exact ⟨execNext_mem_wf _ hwf, execNext_fl_legal _ hlegal,
      fun k op addr hf => absurd hf (execNext_rs_ne_faulted _ hr k op addr)⟩
  · exact ⟨hwf, hlegal, raiseUnknownOpcode_faultPrecise hnone⟩

/-- Settles O37: nothing is listed, no flag is set, and reset is Running. -/
theorem resetMeetsInvariant : Obligations.ResetMeetsInvariant := by
  unfold Obligations.ResetMeetsInvariant
  exact ⟨State.reset_mem_wf, rfl, nofun⟩

/-! ### The canonical form is unique -/

/-- An address that reads as listed lies in the range of the list. -/
theorem Memory.le_of_read_ne {lo a : Nat} {m : Memory} (hwf : Memory.wfFrom lo m = true)
    (h : m.read a ≠ Memory.unlisted) : lo ≤ a := by
  induction m generalizing lo with
  | nil => exact absurd rfl h
  | cons c m ih =>
    obtain ⟨k, v⟩ := c
    obtain ⟨hlo, -, -, htail⟩ := (Memory.wfFrom_cons lo k v m).1 hwf
    by_cases hk : k = a
    · exact hk ▸ hlo
    · rw [Memory.read_cons, if_neg hk] at h
      exact Nat.le_trans (Nat.le_succ_of_le hlo) (ih htail h)

/-- The first cell of a canonical list reads as listed. -/
theorem Memory.read_head_ne {lo k : Nat} {v : Byte} {m : Memory}
    (hwf : Memory.wfFrom lo ((k, v) :: m) = true) :
    Memory.read ((k, v) :: m) k ≠ Memory.unlisted := by
  obtain ⟨-, -, hv, -⟩ := (Memory.wfFrom_cons lo k v m).1 hwf
  rwa [Memory.read_cons, if_pos rfl]

/-- Of two canonical lists that read alike, neither begins before the other. -/
theorem Memory.head_le_of_read_eq {lo lo' k k' : Nat} {v v' : Byte} {m m' : Memory}
    (hwf : Memory.wfFrom lo ((k, v) :: m) = true)
    (hwf' : Memory.wfFrom lo' ((k', v') :: m') = true)
    (heq : ∀ a, Memory.read ((k, v) :: m) a = Memory.read ((k', v') :: m') a) : k' ≤ k := by
  obtain ⟨-, hk', hv', htail'⟩ := (Memory.wfFrom_cons lo' k' v' m').1 hwf'
  have hfrom : Memory.wfFrom k' ((k', v') :: m') = true :=
    (Memory.wfFrom_cons k' k' v' m').2 ⟨Nat.le_refl k', hk', hv', htail'⟩
  exact Memory.le_of_read_ne hfrom (heq k ▸ Memory.read_head_ne hwf)

/-- Below the range of a canonical list every address reads as unlisted. -/
theorem Memory.read_eq_unlisted_of_lt {lo a : Nat} {m : Memory} (hwf : Memory.wfFrom lo m = true)
    (h : a < lo) : m.read a = Memory.unlisted :=
  by_contra fun hne => Nat.not_le_of_lt h (Memory.le_of_read_ne hwf hne)

/-- The same at and beyond the end of the address space. -/
theorem Memory.read_eq_unlisted_of_ge {lo a : Nat} {m : Memory} (hwf : Memory.wfFrom lo m = true)
    (h : 256 ≤ a) : m.read a = Memory.unlisted := by
  induction m generalizing lo with
  | nil => rfl
  | cons c m ih =>
    obtain ⟨k, v⟩ := c
    obtain ⟨-, hk, -, htail⟩ := (Memory.wfFrom_cons lo k v m).1 hwf
    rw [Memory.read_cons, if_neg (Nat.ne_of_lt (Nat.lt_of_lt_of_le hk h)), ih htail]

/-- Canonical lists are told apart by what they read. -/
theorem Memory.eq_of_read_eq {lo : Nat} {m m' : Memory} (hwf : Memory.wfFrom lo m = true)
    (hwf' : Memory.wfFrom lo m' = true) (heq : ∀ a, m.read a = m'.read a) : m = m' := by
  induction m generalizing lo m' with
  | nil =>
    cases m' with
    | nil => rfl
    | cons c m' => exact absurd (heq c.1).symm (Memory.read_head_ne hwf')
  | cons c m ih =>
    cases m' with
    | nil => exact absurd (heq c.1) (Memory.read_head_ne hwf)
    | cons c' m' =>
      obtain ⟨k, v⟩ := c
      obtain ⟨k', v'⟩ := c'
      obtain rfl : k = k' := Nat.le_antisymm
        (Memory.head_le_of_read_eq hwf' hwf fun a => (heq a).symm)
        (Memory.head_le_of_read_eq hwf hwf' heq)
      obtain rfl : v = v' := by simpa [Memory.read_cons] using heq k
      obtain ⟨-, -, -, htail⟩ := (Memory.wfFrom_cons lo k v m).1 hwf
      obtain ⟨-, -, -, htail'⟩ := (Memory.wfFrom_cons lo k v m').1 hwf'
      rw [ih htail htail' fun a => ?_]
      by_cases hk : k = a
      · subst hk
        rw [Memory.read_eq_unlisted_of_lt htail (Nat.lt_succ_self k),
          Memory.read_eq_unlisted_of_lt htail' (Nat.lt_succ_self k)]
      · simpa [Memory.read_cons, hk] using heq a

/-- Settles O39: outside the 256 addresses both lists read as unlisted, so they read alike everywhere. -/
theorem canonicalMemoryIsUnique : Obligations.CanonicalMemoryIsUnique := by
  unfold Obligations.CanonicalMemoryIsUnique
  intro m m' hwf hwf' heq
  refine Memory.eq_of_read_eq hwf hwf' fun a => ?_
  by_cases ha : a < 256
  · exact heq a ha
  · rw [Memory.read_eq_unlisted_of_ge hwf (Nat.le_of_not_lt ha),
      Memory.read_eq_unlisted_of_ge hwf' (Nat.le_of_not_lt ha)]

/-! ### One store -/

/-- Settles O38: read after write, and PUSH and CALL as a store at `pushAddr`. -/
theorem memWriteSetsOneCell : Obligations.MemWriteSetsOneCell := by
  unfold Obligations.MemWriteSetsOneCell
  refine fun s addr v => ⟨fun x hx => (s.memRead_memWrite addr x v).trans (if_pos hx),
    fun x hx => (s.memRead_memWrite addr x v).trans (if_neg hx), fun _ _ => rfl, rfl, rfl, rfl, rfl,
    fun r => ⟨_, exec_eq _ s, rfl⟩, fun r => ⟨_, exec_eq _ s, ?_⟩⟩
  have hret : s.returnAddress = BitVec.ofNat 8 ((s.pc.toNat + 2) % 256) :=
    BitVec.eq_of_toNat_eq (by simp [State.returnAddress])
  rw [← hret]
  rfl

/-! ### The stored byte is fetched -/

/-- A read at the address of a storing instruction's store gives its byte. -/
theorem memRead_execNext_of_pushAddr_eq {i : Instr} {s : State} {v x : Byte}
    (hv : s.stored i = some v) (hx : s.pushAddr = x) : (execNext i s).memRead x.toNat = v :=
  hx ▸ memRead_execNext_pushAddr hv

/-- Settles O40: the three fetches are reads at `pc`, `pc + 1`, `pc + 2`, any of which the store may
have hit. -/
theorem pushedByteIsFetched : Obligations.PushedByteIsFetched := by
  unfold Obligations.PushedByteIsFetched
  refine ⟨fun s r hr hd => ?_, fun s r hr hd => ?_⟩
  · have hv : s.stored (.push r) = some (if r = 7 then s.pushAddr else s.getReg r) :=
      congrArg some (s.getReg_decSP_eq_ite r)
    have hA : s.pc + 2 + 1 = s.pc + 3 := BitVec.add_assoc s.pc 2 1
    have hB : s.pc + 2 + 2 = s.pc + 4 := BitVec.add_assoc s.pc 2 2
    exact ⟨_, step_of_fetchDecode hr hd, rfl, hr, fun h => memRead_execNext_of_pushAddr_eq hv h,
      fun h => memRead_execNext_of_pushAddr_eq hv (h.trans hA.symm),
      fun h => memRead_execNext_of_pushAddr_eq hv (h.trans hB.symm)⟩
  · have hv : s.stored (.call r) = some (s.pc + 2) := rfl
    exact ⟨_, step_of_fetchDecode hr hd, rfl, hr, fun h => memRead_execNext_of_pushAddr_eq hv h,
      fun h => memRead_execNext_of_pushAddr_eq hv h, fun h => memRead_execNext_of_pushAddr_eq hv h⟩

/-! ### Bytes beyond the end of an instruction -/

/-- A byte written elsewhere does not change what is read. -/
theorem memRead_memWrite_of_ne (s : State) {x y : Byte} (v : Byte) (h : y ≠ x) :
    (s.memWrite x.toNat v).memRead y.toNat = s.memRead y.toNat := by
  rw [State.memRead_memWrite_byte, if_neg h]

/-- With another byte where only an unused operand is fetched, a step runs the same instruction. -/
theorem step_memWrite_of_build {s : State} {o : Opcode} {x v : Byte} (hr : s.rs = .running)
    (ho : s.memRead s.pc.toNat = o.byte) (hx : s.pc ≠ x)
    (hb : (s.memWrite x.toNat v).fetched o = s.fetched o) :
    step (s.memWrite x.toNat v) = .next (execNext (s.fetched o) (s.memWrite x.toNat v)) := by
  rw [← hb]
  exact step_of_fetchOp (s := s.memWrite x.toNat v) hr ((memRead_memWrite_of_ne s v hx).trans ho)

/-- Operand B is unused by a row of at most two bytes. -/
theorem fetched_memWrite_two {s : State} {o : Opcode} (ho : o.length ≤ 2) (v : Byte) :
    (s.memWrite (s.pc + 2).toNat v).fetched o = s.fetched o := by
  have hA : (s.memWrite (s.pc + 2).toNat v).fetchA = s.fetchA :=
    memRead_memWrite_of_ne s v (by simp)
  rw [State.fetched, State.fetched, hA]
  exact Opcode.build_of_length_le_two ho _ _ _

/-- An instruction that does not store commutes with a write to a cell, unless it loads from it. -/
theorem execNext_memWrite {i : Instr} {s : State} {x : Byte} (v : Byte) (hst : s.stored i = none)
    (hsp : i.opcode = .pop ∨ i.opcode = .ret → s.sp ≠ x) :
    execNext i (s.memWrite x.toNat v) = (execNext i s).memWrite x.toNat v := by
  have htop (h : i.opcode = .pop ∨ i.opcode = .ret) :
      (s.memWrite x.toNat v).stackTop = s.stackTop := memRead_memWrite_of_ne s v (hsp h)
  cases i with
  | push | call => cases hst
  | pop a => rw [execNext_pop, execNext_pop, htop (.inl rfl)]; rfl
  | ret => rw [execNext_ret, execNext_ret, htop (.inr rfl)]; rfl
  | jeq a => simp only [execNext_jeq]; rfl
  | jne a => simp only [execNext_jne]; rfl
  | _ => rfl

/-- The step with another byte in an unused cell is the step, then the byte. -/
theorem step_memWrite_commutes {s : State} {o : Opcode} {x v : Byte} (hr : s.rs = .running)
    (ho : s.memRead s.pc.toNat = o.byte) (hx : s.pc ≠ x)
    (hb : (s.memWrite x.toNat v).fetched o = s.fetched o) (hst : s.stored (s.fetched o) = none)
    (hsp : o = .pop ∨ o = .ret → s.sp ≠ x) :
    step (s.memWrite x.toNat v) = .next ((execNext (s.fetched o) s).memWrite x.toNat v) := by
  rw [step_memWrite_of_build hr ho hx hb,
    execNext_memWrite v hst (by rwa [State.fetched_opcode])]

theorem step_memWrite_of_unknown {s : State} {x : Byte} (v : Byte) (hr : s.rs = .running)
    (hnone : Opcode.ofByte (s.memRead s.pc.toNat) = none) (hx : s.pc ≠ x) :
    step (s.memWrite x.toNat v) =
      .next ((s.raiseUnknownOpcode (s.memRead s.pc.toNat)).memWrite x.toNat v) := by
  have hop : (s.memWrite x.toNat v).memRead (s.memWrite x.toNat v).pc.toNat =
      s.memRead s.pc.toNat := memRead_memWrite_of_ne s v hx
  rw [step_of_unknown (s := s.memWrite x.toNat v) hr (hop.symm ▸ hnone), hop]
  rfl

theorem State.stored_memWrite (s : State) (addr : Nat) (v : Byte) (i : Instr) :
    (s.memWrite addr v).stored i = s.stored i := by
  cases i <;> rfl

/-- A storing instruction reads no memory: another byte in a cell changes nothing else after it. -/
theorem execNext_memWrite_sameButMemory {i : Instr} {s : State} {w : Byte}
    (hst : s.stored i = some w) (addr : Nat) (v : Byte) :
    SameButMemory (execNext i s) (execNext i (s.memWrite addr v)) := by
  cases i with
  | push a | call a => exact ⟨fun _ _ => rfl, rfl, rfl, rfl, rfl⟩
  | _ => cases hst

/-- Memory after a storing instruction on a state with another byte in a cell. -/
theorem memRead_execNext_memWrite {i : Instr} {s : State} {w : Byte} (hst : s.stored i = some w)
    (addr : Nat) (v : Byte) (y : Nat) :
    (execNext i (s.memWrite addr v)).memRead y =
      if y % 256 = s.pushAddr.toNat then w else (s.memWrite addr v).memRead y := by
  rw [memRead_execNext, State.stored_memWrite, hst]
  rfl

/-- Where the store is elsewhere, the other byte stays beside it. -/
theorem execNext_memWrite_sameMemory_of_ne {i : Instr} {s : State} {w x : Byte}
    (hst : s.stored i = some w) (v : Byte) (hx : s.pushAddr ≠ x) :
    SameMemory ((execNext i s).memWrite x.toNat v) (execNext i (s.memWrite x.toNat v)) := fun y => by
  rw [memRead_execNext_memWrite hst, State.memRead_memWrite, State.memRead_memWrite,
    memRead_execNext, hst]
  by_cases hy : y % 256 = s.pushAddr.toNat
  · have hne : s.pushAddr.toNat ≠ x.toNat := fun h => hx (BitVec.eq_of_toNat_eq h)
    have hxm : x.toNat % 256 = x.toNat := Nat.mod_eq_of_lt x.isLt
    simp [Config.memSize, hy, hne, hxm]
  · simp [hy]

/-- Where the store is at that cell, it overwrites the other byte. -/
theorem execNext_memWrite_sameMemory_of_eq {i : Instr} {s : State} {w : Byte}
    (hst : s.stored i = some w) (v : Byte) :
    SameMemory (execNext i s) (execNext i (s.memWrite s.pushAddr.toNat v)) := fun y => by
  rw [memRead_execNext_memWrite hst, memRead_execNext, hst, State.memRead_memWrite]
  have hm : s.pushAddr.toNat % 256 = s.pushAddr.toNat := Nat.mod_eq_of_lt s.pushAddr.isLt
  by_cases hy : y % 256 = s.pushAddr.toNat
  · simp [hy]
  · simp [hy, hm, Config.memSize]

/-- Settles O41: rows that do not store commute with the write, the raise too; PUSH and CALL store
beside it or over it. -/
theorem unusedFetchedBytesDoNothing : Obligations.UnusedFetchedBytesDoNothing := by
  unfold Obligations.UnusedFetchedBytesDoNothing
  intro s t v h
  have hpc1 : s.pc ≠ s.pc + 1 := by simp
  have hpc2 : s.pc ≠ s.pc + 2 := by simp
  obtain ⟨hr, ⟨o, ho, rfl⟩ | ⟨hnone, rfl⟩⟩ := step_row_cases h
  · simp only [ho, isOpcode_byte]
    refine ⟨fun hop => ?_, fun hop => ?_, fun hop => ?_⟩
    · obtain ⟨hlen, hst, hsp⟩ : o.length ≤ 2 ∧ s.stored (s.fetched o) = none ∧
          (o = .pop ∨ o = .ret → s.sp ≠ s.pc + 2) := by
        revert hop
        cases o <;> simp [Opcode.byte, Opcode.length, Opcode.format, Format.length, State.fetched,
          Opcode.build, State.stored]
      exact step_memWrite_commutes hr ho hpc2 (fetched_memWrite_two hlen v) hst hsp
    · obtain ⟨hlen, hst, hsp⟩ : o.length = 1 ∧ s.stored (s.fetched o) = none ∧
          (o = .pop ∨ o = .ret → s.sp ≠ s.pc + 1) := by
        revert hop
        cases o <;> simp [Opcode.byte, Opcode.length, Opcode.format, Format.length, State.fetched,
          Opcode.build, State.stored]
      exact step_memWrite_commutes hr ho hpc1 (Opcode.build_of_length_one hlen _ _ _ _) hst hsp
    · obtain ⟨hlen, w, hst⟩ : o.length ≤ 2 ∧ ∃ w, s.stored (s.fetched o) = some w := by
        revert hop
        cases o <;> simp [Opcode.byte, Opcode.length, Opcode.format, Format.length, State.fetched,
          Opcode.build, State.stored]
      exact ⟨_, step_memWrite_of_build hr ho hpc2 (fetched_memWrite_two hlen v),
        execNext_memWrite_sameButMemory hst _ v, execNext_memWrite_sameMemory_of_ne hst v,
        fun hpush => hpush ▸ execNext_memWrite_sameMemory_of_eq hst v⟩
  · refine ⟨fun _ => step_memWrite_of_unknown v hr hnone hpc2,
      fun _ => step_memWrite_of_unknown v hr hnone hpc1, fun hop => ?_⟩
    have hbytes : ([0x45, 0x50] : List Byte) ⊆ Opcode.bytes := by decide
    exact absurd (hbytes hop) (Opcode.ofByte_eq_none_iff.1 hnone)

/-! ### The stack and subroutines -/

theorem run_two {s t u : State} (hs : step s = .next t) (ht : step t = .next u) :
    Host.Core.run Sys2Proof.core 2 s = .next u := by
  rw [run_succ_of_step hs, run_succ_of_step ht, run_zero]

/-- What a storing instruction pushed is on top of the stack after it. -/
theorem execNext_stackTop {i : Instr} {s : State} {w : Byte} (hst : s.stored i = some w) :
    (execNext i s).stackTop = w := by
  cases i with
  | push a | call a => exact memRead_execNext_pushAddr hst
  | _ => cases hst

theorem State.pushAddr_add_one (s : State) : s.pushAddr + 1 = s.sp := by
  rw [State.pushAddr_eq, BitVec.sub_add_cancel]

/-- The POP after a PUSH of the same register: the pushed byte comes back, then `SP` does, which for
register 7 is that byte plus 1 (D12). -/
theorem getReg_pop_push (s : State) (a r : RegIdx) :
    (execNext (.pop a) (execNext (.push a) s)).getReg r = s.getReg r := by
  have htop : (execNext (.push a) s).stackTop = s.decSP.getReg a := execNext_stackTop rfl
  have hsp : (execNext (.push a) s).sp = s.pushAddr := rfl
  rw [execNext_pop, State.getReg_advancePc, State.getReg_incSP, State.sp_setReg,
    State.getReg_setReg, htop, hsp, State.getReg_decSP_eq_ite]
  by_cases hr7 : r = 7
  · subst hr7
    have hsp' : s.pushAddr + 1 = s.getReg 7 := s.pushAddr_add_one
    by_cases ha : a = 7 <;> simpa [ha, Config.spIndex] using hsp'
  · by_cases hra : r = a
    · subst hra
      simp [hr7, Config.spIndex]
    · simpa [hr7, hra, Config.spIndex] using
        execNext_sameRegsExcept (.push a) s r (by simpa [Instr.writes] using hr7)

/-- The RET after a CALL: `SP` comes back, and no other register moved. -/
theorem getReg_ret_call (s : State) (a r : RegIdx) :
    (execNext .ret (execNext (.call a) s)).getReg r = s.getReg r := by
  have hsp : (execNext (.call a) s).sp = s.pushAddr := rfl
  by_cases hr7 : r = 7
  · subst hr7
    exact (State.getReg_setReg_self _ _ _).trans (hsp ▸ s.pushAddr_add_one)
  · have hr : r ∉ [7] := by simpa using hr7
    exact (execNext_sameRegsExcept .ret _ r hr).trans (execNext_sameRegsExcept (.call a) s r hr)

/-- A fetch that the store of an instruction did not hit. -/
theorem memRead_execNext_of_ne (i : Instr) {s : State} {x : Byte} (h : s.pushAddr ≠ x) :
    (execNext i s).memRead x.toNat = s.memRead x.toNat := by
  refine execNext_sameMemoryExcept i s x.toNat fun hx => h (BitVec.eq_of_toNat_eq ?_)
  rw [← hx, Nat.mod_eq_of_lt x.isLt]

/-- Settles O42: the POP is fetched from bytes the PUSH did not hit, and undoes it. -/
theorem pushThenPopRestores : Obligations.PushThenPopRestores := by
  unfold Obligations.PushThenPopRestores
  intro s r hr hpush hpop hne2 hne3
  obtain ⟨o, ho, hbuild⟩ := row_of_decode_instr hpop
  obtain rfl : o = .pop := by
    rw [← Opcode.build_opcode o _ _, hbuild]
    rfl
  have hop : (execNext (.push r) s).memRead (s.pc + 2).toNat = Opcode.pop.byte :=
    (memRead_execNext_of_ne _ hne2).trans ho.symm
  have hpc3 : s.pc + 2 + 1 = s.pc + 3 := BitVec.add_assoc s.pc 2 1
  have hA : (execNext (.push r) s).fetchA = s.memRead (s.pc + 3).toNat := by
    rw [← memRead_execNext_of_ne (.push r) hne3, ← hpc3]
    rfl
  have hfetched : (execNext (.push r) s).fetched .pop = .pop r := by
    rw [← hbuild, State.fetched, hA]
    rfl
  have hstep := step_of_fetchOp (s := execNext (.push r) s) hr hop
  rw [hfetched] at hstep
  exact ⟨_, run_two (step_of_fetchDecode hr hpush) hstep, getReg_pop_push s r r,
    getReg_pop_push s r 7, fun x _ => getReg_pop_push s r x,
    fun x hx => (execNext_sameMemory rfl x).trans (execNext_sameMemoryExcept _ s x hx),
    BitVec.add_assoc s.pc 2 2, rfl, hr, rfl⟩

/-- Settles O43: the RET is fetched from a byte the CALL did not hit, and undoes it. -/
theorem callThenRetReturns : Obligations.CallThenRetReturns := by
  unfold Obligations.CallThenRetReturns
  intro s r hr hcall hret hne
  have hop : (execNext (.call r) s).memRead (s.decSP.getReg r).toNat = Opcode.ret.byte :=
    (memRead_execNext_of_ne _ hne.symm).trans hret
  have hstep : step (execNext (.call r) s) = .next (execNext .ret (execNext (.call r) s)) :=
    step_of_fetchOp (s := execNext (.call r) s) (o := .ret) hr hop
  have hstored : s.stored (.call r) = some (s.pc + 2) := rfl
  exact ⟨_, run_two (step_of_fetchDecode hr hcall) hstep, execNext_stackTop hstored,
    getReg_ret_call s r 7, fun x _ => getReg_ret_call s r x,
    fun x hx => (execNext_sameMemory rfl x).trans (execNext_sameMemoryExcept _ s x hx),
    (execNext_sameMemory rfl _).trans (memRead_execNext_pushAddr hstored), rfl, hr, rfl⟩

end Sys2Proof.Machine
end

section
/-! Reset, the host's interfaces (R33, R150, R170 to R176), and the run that ends in a halt (R86). -/

namespace Sys2Proof.Machine

/-! ### Reset and the load port -/

/-- Settles O44: the reset values, and the fault on the unlisted byte at address 0. -/
theorem resetValues : Obligations.ResetValues := by
  unfold Obligations.ResetValues
  have hnone : Opcode.ofByte (State.reset.memRead State.reset.pc.toNat) = none := rfl
  exact ⟨rfl, rfl, rfl, by decide, rfl, fun _ => rfl, rfl, _, step_of_unknown rfl hnone, rfl⟩

/-- Reading a run of bytes stored inside the address space: byte `k - base` of the run, or the byte that
was there. -/
theorem memRead_storeBytes (bs : List Byte) : ∀ (base : Nat) (s : State) (k : Nat),
    base + bs.length ≤ 256 → k < 256 → (State.storeBytes base bs s).memRead k =
      if k < base then s.memRead k else bs.getD (k - base) (s.memRead k) := by
  induction bs with
  | nil => intro base s k _ _; simp [State.storeBytes]
  | cons b bs ih =>
    intro base s k hlen hk
    rw [List.length_cons] at hlen
    have hread : (s.memWrite base b).memRead k = if k = base then b else s.memRead k := by
      rw [State.memRead_memWrite, Config.memSize, Nat.mod_eq_of_lt hk,
        Nat.mod_eq_of_lt (show base < 256 by omega)]
    rw [State.storeBytes, ih (base + 1) _ k (by omega) hk, hread]
    rcases Nat.lt_trichotomy k base with hlt | rfl | hgt
    · simp [hlt, Nat.ne_of_lt hlt, Nat.lt_succ_of_lt hlt]
    · simp
    · obtain ⟨d, hd⟩ := Nat.exists_eq_add_of_lt hgt
      have htail : k - (base + 1) = d := by omega
      have hfull : k - base = d + 1 := by omega
      rw [if_neg (Nat.not_lt_of_le hgt), if_neg (Nat.lt_asymm hgt), if_neg (Nat.ne_of_gt hgt), htail,
        hfull, List.getD_cons_succ]

theorem loadImage_of_le (s : State) {img : List Byte} (h : img.length ≤ 256) :
    s.loadImage img = .next (State.storeBytes Config.loadBase img s) :=
  if_pos ((imageFits_iff img).2 h)

theorem loadImage_of_gt (s : State) {img : List Byte} (h : 256 < img.length) :
    s.loadImage img = .refused (.imageTooLong img.length) :=
  if_neg fun hfits => Nat.not_le_of_lt h ((imageFits_iff img).1 hfits)

/-- Settles O45: the bytes by `memRead_storeBytes`, the rest by the frame of storing bytes. -/
theorem loadPutsImageAtZero : Obligations.LoadPutsImageAtZero := by
  unfold Obligations.LoadPutsImageAtZero
  refine fun img => ⟨fun h => ⟨_, loadImage_of_le State.reset h, fun k hk => ?_, ?_⟩,
    loadImage_of_gt State.reset⟩
  · exact memRead_storeBytes img Config.loadBase State.reset k
      (by rwa [Config.loadBase, Nat.zero_add]) hk
  · obtain ⟨hregs, hpc, hfl, hrs, hout⟩ :=
      State.storeBytes_frame img Config.loadBase State.reset
    have hrunning : (State.storeBytes Config.loadBase img State.reset).rs = .running := hrs
    refine ⟨fun r _ => congrArg (Vector.get · r) hregs, hpc, hfl, hrs, hout,
      State.storeBytes_wf img _ _ State.reset_mem_wf, ?_, fun k op addr hf => ?_⟩
    · rw [hfl]
      rfl
    · rw [hrunning] at hf
      cases hf

/-! ### The host's commands -/

theorem Session.after_eq_next_iff {p : Phase} {r : StepResult} {y : Session} :
    Session.after p r = .next y ↔ y.phase = p ∧ r = .next y.core := by
  obtain ⟨q, c⟩ := y
  cases r <;> simp [Session.after, and_comm, eq_comm]

theorem Session.act_load {x : Session} (h : x.phase = .afterReset) (img : List Byte) :
    x.act (.load img) = Session.after .loaded (x.core.loadImage img) := by
  simp only [Session.act, h]

theorem Session.act_load_late {x : Session} (h : x.phase ≠ .afterReset) (img : List Byte) :
    x.act (.load img) = .refused .loadOutOfOrder := by
  cases hp : x.phase with
  | afterReset => exact absurd hp h
  | loaded | run => simp only [Session.act, hp]

theorem Session.act_step_early {x : Session} (h : x.phase = .afterReset) :
    x.act .step = .refused .stepBeforeLoad := by
  simp only [Session.act, h]

theorem Session.act_step {x : Session} (h : x.phase ≠ .afterReset) :
    x.act .step = Session.after .run (step x.core) := by
  cases hp : x.phase with
  | afterReset => exact absurd hp h
  | loaded | run => simp only [Session.act, hp]

/-- The load port accepts exactly the images that fit. -/
theorem loadImage_eq_next {s t : State} {img : List Byte} (h : s.loadImage img = .next t) :
    img.length ≤ 256 := by
  by_contra hgt
  rw [loadImage_of_gt s (Nat.lt_of_not_le hgt)] at h
  cases h

/-- Settles O46: each command by the phase it comes in. -/
theorem hostCommandsInOrder : Obligations.HostCommandsInOrder := by
  unfold Obligations.HostCommandsInOrder
  refine fun x => ⟨rfl, fun img y h => ?_, fun hp img hle => ?_, fun hp img hgt => ?_,
    fun y h => ?_, fun hp t ht => ?_, fun hp f hf => ?_, Session.act_step_early,
    fun hp img => Session.act_load_late hp img⟩
  · by_cases hp : x.phase = .afterReset
    · rw [Session.act_load hp, Session.after_eq_next_iff] at h
      exact ⟨hp, h.1, loadImage_eq_next h.2, h.2⟩
    · rw [Session.act_load_late hp] at h
      cases h
  · have hload := loadImage_of_le x.core hle
    exact ⟨_, hload, by rw [Session.act_load hp, hload, Session.after]⟩
  · rw [Session.act_load hp, loadImage_of_gt _ hgt, Session.after]
  · by_cases hp : x.phase = .afterReset
    · rw [Session.act_step_early hp] at h
      cases h
    · rw [Session.act_step hp, Session.after_eq_next_iff] at h
      exact ⟨hp, h⟩
  · rw [Session.act_step hp, ht, Session.after]
  · rw [Session.act_step hp, hf, Session.after]

/-! ### The debug snapshot and the output's numerals -/

/-- Settles O48: the three bytes are the fetched ones, so they decode to what the step runs. -/
theorem snapshotShowsNextFetch : Obligations.SnapshotShowsNextFetch := by
  unfold Obligations.SnapshotShowsNextFetch
  exact fun s => ⟨rfl, fun _ => rfl, rfl, s.fetchA_eq, s.fetchB_eq, fun i hr hd =>
    (step_of_fetchDecode hr hd).trans (exec_eq i s).symm⟩

theorem digitChar_toNat {n : Nat} (h : n < 10) : (digitChar n).toNat = '0'.toNat + n := by
  revert n
  decide

theorem digitChar_value {n : Nat} (h : n < 10) : (digitChar n).toNat - '0'.toNat = n := by
  rw [digitChar_toNat h, Nat.add_sub_cancel_left]

theorem digitChar_isDigit {n : Nat} (h : n < 10) :
    '0'.toNat ≤ (digitChar n).toNat ∧ (digitChar n).toNat ≤ '9'.toNat := by
  have h9 : '9'.toNat = '0'.toNat + 9 := rfl
  rw [digitChar_toNat h, h9]
  omega

theorem eq_zero_of_digitChar_eq {n : Nat} (hn : n < 10) (h : digitChar n = '0') : n = 0 := by
  rw [← digitChar_value hn, h, Nat.sub_self]

/-- A numeral has one digit, or two or three of which the first is not 0. -/
theorem decimal_cases (v : Byte) :
    (∃ a, a < 10 ∧ v.toNat = a ∧ decimal v = [digitChar a]) ∨
    (∃ a b, a < 10 ∧ b < 10 ∧ a ≠ 0 ∧ v.toNat = 10 * a + b ∧
      decimal v = [digitChar a, digitChar b]) ∨
    (∃ a b c, a < 10 ∧ b < 10 ∧ c < 10 ∧ a ≠ 0 ∧ v.toNat = 10 * (10 * a + b) + c ∧
      decimal v = [digitChar a, digitChar b, digitChar c]) := by
  have hv : v.toNat < 256 := v.isLt
  by_cases h10 : v.toNat < 10
  · exact .inl ⟨v.toNat, h10, rfl, if_pos h10⟩
  · by_cases h100 : v.toNat < 100
    · exact .inr (.inl ⟨v.toNat / 10, v.toNat % 10, by omega, by omega, by omega, by omega,
        (if_neg h10).trans (if_pos h100)⟩)
    · exact .inr (.inr ⟨v.toNat / 100, v.toNat / 10 % 10, v.toNat % 10, by omega, by omega,
        by omega, by omega, by omega, (if_neg h10).trans (if_neg h100)⟩)

/-- Settles O49: by the number of digits, each digit's value and the first one's being 0. -/
theorem decimalNumeralIsMinimal : Obligations.DecimalNumeralIsMinimal := by
  unfold Obligations.DecimalNumeralIsMinimal
  intro v
  rcases decimal_cases v with ⟨a, ha, hv, hd⟩ | ⟨a, b, ha, hb, h0, hv, hd⟩ |
    ⟨a, b, c, ha, hb, hc, h0, hv, hd⟩
  · refine ⟨by simp only [hd, hv, List.foldl, digitChar_value ha, Nat.zero_add, Nat.mul_zero],
      by simpa [hd] using digitChar_isDigit ha, by simp [hd], fun h => ?_⟩
    have ha0 : a = 0 := eq_zero_of_digitChar_eq ha (by simpa [hd] using h)
    subst ha0
    exact ⟨BitVec.eq_of_toNat_eq hv, hd⟩
  · refine ⟨by simp only [hd, hv, List.foldl, digitChar_value ha, digitChar_value hb, Nat.zero_add,
        Nat.mul_zero],
      by simpa [hd] using ⟨digitChar_isDigit ha, digitChar_isDigit hb⟩, by simp [hd], fun h => ?_⟩
    exact absurd (eq_zero_of_digitChar_eq ha (by simpa [hd] using h)) h0
  · refine ⟨by simp only [hd, hv, List.foldl, digitChar_value ha, digitChar_value hb,
        digitChar_value hc, Nat.zero_add, Nat.mul_zero],
      by simpa [hd] using ⟨digitChar_isDigit ha, digitChar_isDigit hb, digitChar_isDigit hc⟩,
      by simp [hd], fun h => ?_⟩
    exact absurd (eq_zero_of_digitChar_eq ha (by simpa [hd] using h)) h0

/-! ### A placed word -/

/-- A store at an address and at that address modulo 256 is one store (R43). -/
theorem memWrite_mod (s : State) (addr : Nat) (v : Byte) :
    s.memWrite (addr % 256) v = s.memWrite addr v := by
  rw [State.memWrite, State.memWrite, Config.memSize, Nat.mod_mod]

theorem storeBytes_three (s : State) (p b0 b1 b2 : Byte) :
    State.storeBytes p.toNat [b0, b1, b2] s =
      ((s.memWrite p.toNat b0).memWrite (p + 1).toNat b1).memWrite (p + 2).toNat b2 := by
  have h1 : (p + 1).toNat = (p.toNat + 1) % 256 := BitVec.toNat_add p 1
  have h2 : (p + 2).toNat = (p.toNat + 2) % 256 := BitVec.toNat_add p 2
  rw [h1, h2, memWrite_mod, memWrite_mod]
  rfl

/-- The three bytes placed are the three bytes fetched. -/
theorem fetchDecode_withFetchWord (s : State) (nbits w : Nat) :
    (s.withFetchWord nbits w).fetchDecode =
      decode (tableByte nbits w 0) (tableByte nbits w 1) (tableByte nbits w 2) := by
  have hread (x : Byte) : (s.withFetchWord nbits w).memRead x.toNat =
      if x = s.pc + 2 then tableByte nbits w 2 else if x = s.pc + 1 then tableByte nbits w 1
      else if x = s.pc then tableByte nbits w 0 else s.memRead x.toNat := by
    rw [← State.memRead_memWrite_byte, ← State.memRead_memWrite_byte,
      ← State.memRead_memWrite_byte, ← storeBytes_three]
    rfl
  have hpc : (s.withFetchWord nbits w).pc = s.pc := rfl
  rw [State.fetchDecode, State.fetchOp, State.fetchA, State.fetchB, hpc, hread, hread, hread]
  simp

/-- Settles O50: the placed word is fetched, and the machine is Running. -/
theorem placedWordIsRun : Obligations.PlacedWordIsRun := by
  unfold Obligations.PlacedWordIsRun
  intro s nbits w i h
  have hd : (s.withFetchWord nbits w).fetchDecode = .instr i := by
    rw [fetchDecode_withFetchWord]
    unfold decodeTableWord at h
    split at h
    · next j hj => rw [hj, Option.some.inj h]
    · cases h
  rw [exec_eq]
  exact step_of_fetchDecode rfl hd

/-! ### Runs that end -/

/-- A machine that is not Running goes nowhere. -/
theorem eq_of_run_of_not_running {n : Nat} {s t : State} (hs : s.rs ≠ .running)
    (h : Host.Core.run Sys2Proof.core n s = .next t) : s = t := by
  cases n with
  | zero => exact Host.Outcome.next.inj ((run_zero s).symm.trans h)
  | succ n =>
    obtain ⟨u, hstep, _⟩ := step_of_run_succ h
    exact absurd (step_cases hstep).1 hs

/-- Two runs from one state that both end stopped end in the same state. -/
theorem run_stopped_unique {n m : Nat} {s t u : State}
    (ht : Host.Core.run Sys2Proof.core n s = .next t) (htr : t.rs ≠ .running)
    (hu : Host.Core.run Sys2Proof.core m s = .next u) (hur : u.rs ≠ .running) : t = u := by
  rcases Nat.le_total n m with hle | hle
  · obtain ⟨k, rfl⟩ := Nat.exists_eq_add_of_le hle
    exact eq_of_run_of_not_running htr ((run_add ht k).symm.trans hu)
  · obtain ⟨k, rfl⟩ := Nat.exists_eq_add_of_le hle
    exact (eq_of_run_of_not_running hur ((run_add hu k).symm.trans ht)).symm

/-- Settles O51: a run ends in one stopped state only, and that one is Halted. -/
theorem haltingRunIsSafe : Obligations.HaltingRunIsSafe := by
  unfold Obligations.HaltingRunIsSafe
  rintro s ⟨n, t, ht, hhalt⟩ m u hu k op addr hfault
  have hhalt' : t.rs = .halted := hhalt
  have htu : t = u := run_stopped_unique ht (by simp [hhalt']) hu (by simp [hfault])
  rw [← htu, hhalt'] at hfault
  cases hfault

end Sys2Proof.Machine
end
